-- ==== Sys2Proof/Word.lean ====
section
/-! DEFINITION. The words and the closed sets of names of the SOM codec: the widths of `10_state.md` R10 and
`30_encoding.md` R54 to R57, the two modes, the position registers' states, the configuration addresses and the
rejection labels. The numeric codes are functions, the names are inductive types (`93_implementation_defined.md` I5). -/

namespace Sys2Proof

/-- A payload, body or frame byte (`20_memory.md` R33). -/
abbrev Byte := BitVec 8

/-- An accumulator, `ENC_R` or `DEC_R` (`10_state.md` R11, R15). -/
abbrev Acc := BitVec 14

/-- A bit counter, `ENC_C` or `DEC_C` (`10_state.md` R12, R16). -/
abbrev Cnt := BitVec 4

/-- A vendor id (`10_state.md` R22). -/
abbrev Vid := BitVec 7

/-- The bits of a token on an input port: bit 8 is `end`, bits 7:0 are `data` (`30_encoding.md` R54). -/
abbrev InToken := BitVec 9

/-- The bits of a configuration access: bit 9 `we`, bit 8 `addr`, bits 7:0 `wdata` (`30_encoding.md` R56). -/
abbrev Access := BitVec 10

/-- `Mode` (`10_state.md` R21): 0 is Binary, 1 is Ascii. -/
inductive Mode where
  | binary
  | ascii
deriving DecidableEq, Repr

/-- The values of `ENC_ST` (`10_state.md` R13). -/
inductive EncSt where
  | idle
  | body
deriving DecidableEq, Repr

/-- The values of `DEC_ST` (`10_state.md` R17). -/
inductive DecSt where
  | hdr0
  | hdr1
  | body
  | skip
deriving DecidableEq, Repr

/-- A configuration address (`20_memory.md` R42): 0 is `ENC_CFG`, 1 is `DEC_CFG`. -/
inductive CfgAddr where
  | enc
  | dec
deriving DecidableEq, Repr

/-- The labels of the rejection causes (`60_exceptions.md` R131). -/
inductive RejCause where
  | short
  | start
  | vendor
deriving DecidableEq, Repr

/-- The code of a mode (`10_state.md` R21, `30_encoding.md` R57). -/
def Mode.code : Mode → BitVec 1
  | .binary => 0
  | .ascii => 1

/-- The code of `ENC_ST` (`10_state.md` R10, R13). -/
def EncSt.code : EncSt → BitVec 1
  | .idle => 0
  | .body => 1

/-- The code of `DEC_ST` (`10_state.md` R10, R17). -/
def DecSt.code : DecSt → BitVec 2
  | .hdr0 => 0
  | .hdr1 => 1
  | .body => 2
  | .skip => 3

/-- The number of a rejection label (`60_exceptions.md` R131): in traces only. -/
def RejCause.code : RejCause → Nat
  | .short => 0
  | .start => 1
  | .vendor => 2

end Sys2Proof
end

