-- ==== Sys2Proof/Config.lean ====
section
/-! DEFINITION. The constants of the block: the parameters the source fixes (`00_scope.md` R6) and the ones it
leaves open with the value the spec takes (`00_scope.md` R7). There is no free value: the block is deterministic
(`93_implementation_defined.md` section 2). -/

namespace Sys2Proof.Config

/-- SOX, the frame start byte (`00_scope.md` R6, `30_encoding.md` R51). -/
def sox : Byte := 0xF0

/-- EOX, the frame end byte (`00_scope.md` R6, `30_encoding.md` R51). -/
def eox : Byte := 0xF7

/-- VID_DEFAULT (`00_scope.md` R6). -/
def vidDefault : Vid := 0x7D

/-- MODE_DEFAULT (`00_scope.md` R6, and for the decode half R7). -/
def modeDefault : Mode := .binary

/-- The reset value of both configuration registers (`10_state.md` R29): Binary, vendor 0x7D.
For `DEC_CFG[7]` the value is the spec's own decision D8 (log 9). -/
def cfgReset : Byte := 0x7D

/-- `MAX_LEN`, the longest payload or message (`00_scope.md` R7, `70_reset_and_hazards.md` R163): none. No step reads
it: the block neither counts nor checks (log 15). -/
def maxLen : Option Nat := none

end Sys2Proof.Config
end

