-- ==== Sys2Proof/Machine/State.lean ====
section
/-! DEFINITION. The state of one SOM codec. The ten registers of `10_state.md` R10 are the block's complete
architectural state; they stand in `enc` and `dec`, one structure per half (R28). The other fields are not state of the
block (`10_state.md` R27): the contents of its port channels (`20_memory.md` R31), which the host's closed step function
needs (log 1), what HOST schedules next (log 2), and the event history `60_exceptions.md` R131 permits (log 4). -/

namespace Sys2Proof.Machine

/-- A token on an output port: the flag (`last` on `enc_out`, `end` on `dec_out`) and the data byte, written
`(flag, data)` in the spec (`30_encoding.md` R54, R55). -/
structure Token where
  flag : Bool
  data : Byte
deriving DecidableEq, Repr

/-- The encode half's five registers (`10_state.md` R10). -/
structure EncRegs where
  /-- `ENC_CFG` (R19). -/
  cfg : Byte
  /-- `ENC_ST` (R13). -/
  st : EncSt
  /-- `ENC_LMODE` (R14). -/
  lmode : Mode
  /-- `ENC_R` (R11). -/
  r : Acc
  /-- `ENC_C` (R12). -/
  c : Cnt
deriving DecidableEq, Repr

/-- The decode half's five registers (`10_state.md` R10). -/
structure DecRegs where
  /-- `DEC_CFG` (R20). -/
  cfg : Byte
  /-- `DEC_ST` (R17). -/
  st : DecSt
  /-- `DEC_LMODE` (R18). -/
  lmode : Mode
  /-- `DEC_R` (R15). -/
  r : Acc
  /-- `DEC_C` (R16). -/
  c : Cnt
deriving DecidableEq, Repr

/-- What HOST lets happen next (`20_memory.md` R32, R43; `43_config_ops.md` R123; `60_exceptions.md` R145). -/
inductive Turn where
  /-- ENC takes its next token, if `enc_in` holds one. -/
  | enc
  /-- DEC takes its next token, if `dec_in` holds one. -/
  | dec
  /-- HOST performs the configuration access with these bits. -/
  | cfg (w : Access)
  /-- HOST asserts `rst`. -/
  | rst
  /-- HOST supplies a token on `enc_in`. -/
  | putEnc (w : InToken)
  /-- HOST supplies a token on `dec_in`. -/
  | putDec (w : InToken)
  /-- HOST takes the oldest token of `enc_out`, if there is one. -/
  | getEnc
  /-- HOST takes the oldest token of `dec_out`, if there is one. -/
  | getDec
deriving DecidableEq, Repr

/-- The state: the ten registers, the port channels, the schedule and the event history. -/
structure State where
  /-- The encode half's registers. -/
  enc : EncRegs
  /-- The decode half's registers. -/
  dec : DecRegs
  /-- The tokens waiting on `enc_in`, oldest first. -/
  encIn : List InToken
  /-- The tokens emitted on `enc_out` and not taken, oldest first. -/
  encOut : List Token
  /-- The tokens waiting on `dec_in`, oldest first. -/
  decIn : List InToken
  /-- The tokens emitted on `dec_out` and not taken, oldest first. -/
  decOut : List Token
  /-- The values the `cfg` port has returned, oldest first (log 16). -/
  rdata : List Byte
  /-- What HOST schedules, next first (log 2). -/
  turns : List Turn
  /-- The labels of the rejections so far, oldest first; no step reads it (`60_exceptions.md` R131, log 4). -/
  rejects : List RejCause
deriving DecidableEq, Repr

/-- The reasons to stop with a fault: none. The block has no fault, trap or hang (`60_exceptions.md` R130, R138), and
a rejection is not a fault (R132). -/
inductive Fault where
deriving DecidableEq, Repr

/-- The reasons to refuse. -/
inductive Refusal where
  /-- An operation without a meaning in this model. No arm of `exec` answers it: every row of the table is
  modelled. Safe. -/
  | notModelled (mnemonic : String)
deriving DecidableEq, Repr

/-- The encode half after reset (`10_state.md` R29, `43_config_ops.md` R122). -/
def EncRegs.reset : EncRegs :=
  { cfg := Config.cfgReset, st := .idle, lmode := .binary, r := 0, c := 0 }

/-- The decode half after reset (`10_state.md` R29, `43_config_ops.md` R122). -/
def DecRegs.reset : DecRegs :=
  { cfg := Config.cfgReset, st := .hdr0, lmode := .binary, r := 0, c := 0 }

/-- The machine right after reset (`10_state.md` R29, `70_reset_and_hazards.md` R150), with nothing on its ports and
nothing scheduled. -/
def State.reset : State :=
  { enc := .reset, dec := .reset, encIn := [], encOut := [], decIn := [], decOut := [], rdata := [], turns := [],
    rejects := [] }

end Sys2Proof.Machine
end

