-- ==== Sys2Proof/Machine/Operands.lean ====
section
/-! DEFINITION. Fields of words and the bit operations of the datapath (`40_bitpack.md` R79: shifts, OR, AND with
0x7F and 0xFF, reduction modulo a power of two). -/

namespace Sys2Proof.Machine

/-- The `MODE` field, bit 7 of a configuration word (`10_state.md` R19, R21; `30_encoding.md` R57). -/
def cfgMode (w : Byte) : Mode := if w.getLsbD 7 then .ascii else .binary

/-- The `VID` field, bits 6:0 of a configuration word (`10_state.md` R19, R22; `30_encoding.md` R57). -/
def cfgVid (w : Byte) : Vid := w.extractLsb' 0 7

/-- The byte a vendor id is on the wire and in comparisons, `zext_8(VID)` (`10_state.md` R22). -/
def vidByte (v : Vid) : Byte := v.setWidth 8

/-- The configuration word `{MODE, VID}` (`30_encoding.md` R57). -/
def cfgWord (m : Mode) (v : Vid) : Byte := m.code ++ v

/-- `b & 0x7F` (`40_bitpack.md` R73, R77). -/
def mask7 (b : Byte) : Byte := b &&& 0x7F

/-- `r mod 2^k`, the reduction that discards the emitted bits (`40_bitpack.md` R71, R75). -/
def modPow2 (r : Acc) (k : Nat) : Acc := BitVec.ofNat 14 (r.toNat % 2 ^ k)

/-- `((r << 8) | zext_14(b))[13:0]` (`40_bitpack.md` R71). -/
def shiftIn8 (r : Acc) (b : Byte) : Acc := (r <<< 8) ||| b.setWidth 14

/-- `((r << 7) | zext_14(g))[13:0]`: `g` is not masked (`40_bitpack.md` R75, R84). -/
def shiftIn7 (r : Acc) (g : Byte) : Acc := (r <<< 7) ||| g.setWidth 14

/-- `zext_8((r >> (c - 7)) & 0x7F)`, the highest seven pending bits (`40_bitpack.md` R71). -/
def topGroup (r : Acc) (c : Cnt) : Byte := ((r >>> (c - 7).toNat) &&& 0x7F).setWidth 8

/-- `zext_8((r << (7 - c)) & 0x7F)`, the pending bits padded on the right with zeros (`40_bitpack.md` R72). -/
def padGroup (r : Acc) (c : Cnt) : Byte := ((r <<< (7 - c).toNat) &&& 0x7F).setWidth 8

/-- `(r >> (c - 8)) & 0xFF`, the highest eight pending bits (`40_bitpack.md` R75). -/
def topByte (r : Acc) (c : Cnt) : Byte := ((r >>> (c - 8).toNat) &&& 0xFF).setWidth 8

/-- A frame byte that is not the last, `(0, d)`; a payload byte on `dec_out`, P.BYTE d (`30_encoding.md` R54, R55). -/
def Token.byte (d : Byte) : Token := { flag := false, data := d }

/-- F.LAST, `(1, 0xF7)` (`30_encoding.md` R55). -/
def Token.fLast : Token := { flag := true, data := Config.eox }

/-- P.END, `(1, 0x00)` (`30_encoding.md` R54). -/
def Token.pEnd : Token := { flag := true, data := 0 }

/-- The nine bits of a token (`30_encoding.md` R54, R55): bit 8 the flag, bits 7:0 the data. -/
def Token.bits (t : Token) : BitVec 9 := BitVec.ofBool t.flag ++ t.data

end Sys2Proof.Machine
end

