-- ==== Sys2Proof/Machine/Flags.lean ====
section
/-! DEFINITION. The flags. The block has no condition codes, no status flags and no sticky bits (`10_state.md` R24); the
only flag-like bits are the two latched mode bits (R14, R18), and these are the two places that load them. -/

namespace Sys2Proof.Machine

/-- `ENC_LMODE <- ENC_CFG[7]`, by the first token of a frame (`10_state.md` R14, `41_frame_encode.md` R91). -/
def EncRegs.latchMode (e : EncRegs) : EncRegs := { e with lmode := cfgMode e.cfg }

/-- `DEC_LMODE <- DEC_CFG[7]`, in the step that accepts the vendor id (`10_state.md` R18, `42_frame_decode.md` R103). -/
def DecRegs.latchMode (d : DecRegs) : DecRegs := { d with lmode := cfgMode d.cfg }

end Sys2Proof.Machine
end

