-- ==== Sys2Proof/Machine/Ops.lean ====
section
/-! DEFINITION. The named operations the meanings share: emission on the two output ports (`20_memory.md` R32), the
datapath steps PACK.B8, PACK.FL, PACK.A, UNPK.G7, UNPK.DR, UNPK.A and the mode dispatch (`40_bitpack.md` R71 to R78),
the encoder's helper steps (`41_frame_encode.md` R91, R94), and the block's one exceptional outcome, the silent
rejection, with its end (`60_exceptions.md` R131, R136, R137). A half's operation reads and writes its own five registers
only, so its effect is a function of them (`10_state.md` R28). -/

namespace Sys2Proof.Machine

/-- What an operation of the encode half leaves: its registers, and the tokens it emits on `enc_out`, in order. -/
structure EncEff where
  regs : EncRegs
  out : List Token
deriving DecidableEq, Repr

/-- What an operation of the decode half leaves: its registers, the tokens it emits on `dec_out`, in order, and the
labels of the rejections it raises. -/
structure DecEff where
  regs : DecRegs
  out : List Token
  rejects : List RejCause
deriving DecidableEq, Repr

/-- One operation of the encode half after another, the tokens in order. -/
def EncEff.andThen (x : EncEff) (f : EncRegs → EncEff) : EncEff :=
  { regs := (f x.regs).regs, out := x.out ++ (f x.regs).out }

/-- An operation of the encode half performed on the machine: its tokens are appended after every token emitted
earlier on `enc_out` (`20_memory.md` R32). -/
def State.applyEnc (s : State) (f : EncRegs → EncEff) : State :=
  { s with enc := (f s.enc).regs, encOut := s.encOut ++ (f s.enc).out }

/-- An operation of the decode half performed on the machine: its tokens are appended after every token emitted
earlier on `dec_out` (`20_memory.md` R32). -/
def State.applyDec (s : State) (f : DecRegs → DecEff) : State :=
  { s with dec := (f s.dec).regs, decOut := s.decOut ++ (f s.dec).out, rejects := s.rejects ++ (f s.dec).rejects }

/-! ### The encode half -/

/-- The loop of PACK.B8 (`40_bitpack.md` R71): while `ENC_C ≥ 7`, emit the highest seven pending bits and discard them.
The first argument bounds the rounds. -/
def packLoop : Nat → EncRegs → EncEff
  | 0, e => { regs := e, out := [] }
  | n + 1, e =>
    if 7 ≤ e.c then
      let rest := packLoop n { e with r := modPow2 e.r (e.c - 7).toNat, c := e.c - 7 }
      { regs := rest.regs, out := Token.byte (topGroup e.r e.c) :: rest.out }
    else { regs := e, out := [] }

/-- PACK.B8 (`40_bitpack.md` R71). Two rounds are all a 4-bit counter allows. -/
def packB8 (b : Byte) (e : EncRegs) : EncEff :=
  packLoop 2 { e with r := shiftIn8 e.r b, c := e.c + 8 }

/-- PACK.FL (`40_bitpack.md` R72). -/
def packFl (e : EncRegs) : EncEff :=
  { regs := { e with r := 0, c := 0 }, out := if 0 < e.c then [Token.byte (padGroup e.r e.c)] else [] }

/-- PACK.A (`40_bitpack.md` R73). -/
def packA (b : Byte) (e : EncRegs) : EncEff :=
  { regs := e, out := [Token.byte (mask7 b)] }

/-- EncAbsorb (`40_bitpack.md` R78). -/
def encAbsorb (b : Byte) (e : EncRegs) : EncEff :=
  match e.lmode with
  | .binary => packB8 b e
  | .ascii => packA b e

/-- EncFinish (`40_bitpack.md` R78). -/
def encFinish (e : EncRegs) : EncEff :=
  match e.lmode with
  | .binary => packFl e
  | .ascii => { regs := { e with r := 0, c := 0 }, out := [] }

/-- EncStart (`41_frame_encode.md` R91): the header, and the mode of the frame. -/
def encStart (e : EncRegs) : EncEff :=
  { regs := e.latchMode, out := [Token.byte Config.sox, Token.byte (vidByte (cfgVid e.cfg))] }

/-- EncEnd (`41_frame_encode.md` R94). -/
def encEnd (e : EncRegs) : EncEff :=
  (encFinish e).andThen fun e => { regs := { e with r := 0, c := 0, st := .idle }, out := [Token.fLast] }

/-! ### The decode half -/

/-- An operation of the decode half that emits nothing and rejects nothing. -/
def DecEff.quiet (d : DecRegs) : DecEff := { regs := d, out := [], rejects := [] }

/-- `Reject(cause)` (`60_exceptions.md` R131, R136): nothing is emitted, nothing is saved; `DEC_ST` becomes `next`, which is
SKIP, or HDR0 when D.EOM raises it. The label goes to the event history alone. -/
def DecRegs.reject (d : DecRegs) (cause : RejCause) (next : DecSt) : DecEff :=
  { regs := { d with st := next }, out := [], rejects := [cause] }

/-- The end of a message, rejected or not (`60_exceptions.md` R137, `42_frame_decode.md` R108): HDR0, with R and C cleared. -/
def DecRegs.toHdr0 (d : DecRegs) : DecRegs := { d with r := 0, c := 0, st := .hdr0 }

/-- UNPK.G7 (`40_bitpack.md` R75): the byte is not masked, and the loop of R74 runs at most once. -/
def unpkG7 (g : Byte) (d : DecRegs) : DecEff :=
  let r := shiftIn7 d.r g
  let c := d.c + 7
  if 8 ≤ c then
    { regs := { d with r := modPow2 r (c - 8).toNat, c := c - 8 }, out := [Token.byte (topByte r c)], rejects := [] }
  else .quiet { d with r := modPow2 r c.toNat, c := c }

/-- UNPK.DR (`40_bitpack.md` R76): the pending bits are dropped unexamined. -/
def unpkDr (d : DecRegs) : DecRegs := { d with r := 0, c := 0 }

/-- UNPK.A (`40_bitpack.md` R77). -/
def unpkA (g : Byte) (d : DecRegs) : DecEff :=
  { regs := d, out := [Token.byte (mask7 g)], rejects := [] }

/-- DecAbsorb (`40_bitpack.md` R78). -/
def decAbsorb (g : Byte) (d : DecRegs) : DecEff :=
  match d.lmode with
  | .binary => unpkG7 g d
  | .ascii => unpkA g d

/-- DecFinish (`40_bitpack.md` R78). -/
def decFinish (d : DecRegs) : DecRegs := unpkDr d

end Sys2Proof.Machine
end

