-- ==== Sys2Proof/Machine/Decoder.lean ====
section
/-! DEFINITION. The meanings of the decode half's operations: the seven wire symbols, D.BYTE, which selects one of them by
position and byte, and D.EOM (`42_frame_decode.md` R100 to R108, R110). A wire symbol's meaning is its rule's
pseudocode; only D.BYTE's selection brings a run to it (log 5). -/

namespace Sys2Proof.Machine

/-- W.SOX (`42_frame_decode.md` R101). -/
def decSox (d : DecRegs) : DecEff := .quiet { d with st := .hdr1 }

/-- W.BAD0 (`42_frame_decode.md` R102). -/
def decBad0 (d : DecRegs) : DecEff := d.reject .start .skip

/-- W.VID (`42_frame_decode.md` R103): the only step that reads `DEC_CFG`. -/
def decVid (d : DecRegs) : DecEff := .quiet { d.latchMode with r := 0, c := 0, st := .body }

/-- W.BADV (`42_frame_decode.md` R104). -/
def decBadv (d : DecRegs) : DecEff := d.reject .vendor .skip

/-- W.EOX (`42_frame_decode.md` R105): P.END, in either mode, whatever is pending. -/
def decEox (d : DecRegs) : DecEff :=
  { regs := { decFinish d with st := .skip }, out := [Token.pEnd], rejects := [] }

/-- W.GRP (`42_frame_decode.md` R106): `DEC_ST` stays BODY. -/
def decGrp (g : Byte) (d : DecRegs) : DecEff := decAbsorb g d

/-- W.SKIP (`42_frame_decode.md` R107). -/
def decSkip (d : DecRegs) : DecEff := .quiet d

/-- D.BYTE g on the decode half's registers (`42_frame_decode.md` R100): exactly one wire symbol. -/
def decByte (g : Byte) (d : DecRegs) : DecEff :=
  match d.st with
  | .hdr0 => if g = Config.sox then decSox d else decBad0 d
  | .hdr1 => if g = vidByte (cfgVid d.cfg) then decVid d else decBadv d
  | .body => if g = Config.eox then decEox d else decGrp g d
  | .skip => decSkip d

/-- D.EOM on the decode half's registers (`42_frame_decode.md` R108). -/
def decEom (d : DecRegs) : DecEff :=
  match d.st with
  | .hdr0 => { d.reject .short .hdr0 with regs := d.toHdr0 }
  | .hdr1 => { d.reject .short .hdr0 with regs := d.toHdr0 }
  | .body => { regs := (decFinish d).toHdr0, out := [Token.pEnd], rejects := [] }
  | .skip => .quiet d.toHdr0

/-- D.BYTE g: take one raw message byte (`42_frame_decode.md` R100). -/
def execDByte (g : Byte) (s : State) : Host.Outcome State Fault Refusal :=
  .next (s.applyDec (decByte g))

/-- D.EOM: end of the raw message (`42_frame_decode.md` R108). -/
def execDEom (s : State) : Host.Outcome State Fault Refusal :=
  .next (s.applyDec decEom)

/-- W.SOX: the start byte (`42_frame_decode.md` R101). -/
def execWSox (s : State) : Host.Outcome State Fault Refusal :=
  .next (s.applyDec decSox)

/-- W.BAD0: a first byte that is not 0xF0 (`42_frame_decode.md` R102); which one it is does not matter. -/
def execWBad0 (_g : Byte) (s : State) : Host.Outcome State Fault Refusal :=
  .next (s.applyDec decBad0)

/-- W.VID: the vendor id matches (`42_frame_decode.md` R103); the operand equals `DEC_CFG[6:0]` wherever it is selected. -/
def execWVid (_v : Vid) (s : State) : Host.Outcome State Fault Refusal :=
  .next (s.applyDec decVid)

/-- W.BADV: the vendor id differs (`42_frame_decode.md` R104); which byte it is does not matter. -/
def execWBadv (_g : Byte) (s : State) : Host.Outcome State Fault Refusal :=
  .next (s.applyDec decBadv)

/-- W.EOX: the terminator (`42_frame_decode.md` R105). -/
def execWEox (s : State) : Host.Outcome State Fault Refusal :=
  .next (s.applyDec decEox)

/-- W.GRP g: a body byte (`42_frame_decode.md` R106). -/
def execWGrp (g : Byte) (s : State) : Host.Outcome State Fault Refusal :=
  .next (s.applyDec (decGrp g))

/-- W.SKIP: a byte of a rejected or already terminated message (`42_frame_decode.md` R107). -/
def execWSkip (s : State) : Host.Outcome State Fault Refusal :=
  .next (s.applyDec decSkip)

end Sys2Proof.Machine
end

