-- ==== Sys2Proof/Machine/Encoder.lean ====
section
/-! DEFINITION. The meanings of the encode half's operations, E.BYTE and E.EOP (`41_frame_encode.md` R92, R93, R95). -/

namespace Sys2Proof.Machine

/-- E.BYTE d on the encode half's registers (`41_frame_encode.md` R92). -/
def encByte (d : Byte) (e : EncRegs) : EncEff :=
  match e.st with
  | .idle => (encStart e).andThen fun e => encAbsorb d { e with st := .body }
  | .body => encAbsorb d e

/-- E.EOP on the encode half's registers (`41_frame_encode.md` R93): an empty payload still gets its header. -/
def encEop (e : EncRegs) : EncEff :=
  match e.st with
  | .idle => (encStart e).andThen encEnd
  | .body => encEnd e

/-- E.BYTE d: take one payload byte (`41_frame_encode.md` R92). -/
def execEByte (d : Byte) (s : State) : Host.Outcome State Fault Refusal :=
  .next (s.applyEnc (encByte d))

/-- E.EOP: end of payload (`41_frame_encode.md` R93). -/
def execEEop (s : State) : Host.Outcome State Fault Refusal :=
  .next (s.applyEnc encEop)

end Sys2Proof.Machine
end

