-- ==== Sys2Proof/Machine/System.lean ====
section
/-! DEFINITION. The meanings of the system operations: CFG.WR, CFG.RD and RESET (`43_config_ops.md` R120 to R122). -/

namespace Sys2Proof.Machine

/-- The register at a configuration address (`20_memory.md` R42). -/
def State.readCfg (s : State) : CfgAddr → Byte
  | .enc => s.enc.cfg
  | .dec => s.dec.cfg

/-- All eight bits of the addressed register, and nothing else (`43_config_ops.md` R120). -/
def State.writeCfg (s : State) (d : Byte) : CfgAddr → State
  | .enc => { s with enc := { s.enc with cfg := d } }
  | .dec => { s with dec := { s.dec with cfg := d } }

/-- CFG.WR a, d (`43_config_ops.md` R120): legal at any time; no latched mode, position, R or C changes. -/
def execCfgWr (a : CfgAddr) (d : Byte) (s : State) : Host.Outcome State Fault Refusal :=
  .next (s.writeCfg d a)

/-- CFG.RD a (`43_config_ops.md` R121): the `cfg` port returns the configuration register; no register changes. -/
def execCfgRd (a : CfgAddr) (s : State) : Host.Outcome State Fault Refusal :=
  .next { s with rdata := s.rdata ++ [s.readCfg a] }

/-- RESET (`43_config_ops.md` R122): all ten registers; nothing is emitted, what was emitted stays, and the tokens
waiting on the input ports are not touched (`70_reset_and_hazards.md` R151). -/
def execReset (s : State) : Host.Outcome State Fault Refusal :=
  .next { s with enc := .reset, dec := .reset }

end Sys2Proof.Machine
end

