-- ==== Sys2Proof/Syntax.lean ====
section
/-! DEFINITION. The operations of the SOM codec, one constructor per row of `spec/opcode_table.json`
(`30_encoding.md` R61): the four port tokens, the seven wire symbols a D.BYTE token is decoded into (R60), the two
configuration accesses, and reset. -/

namespace Sys2Proof

/-- One operation (`30_encoding.md` R61). -/
inductive Instr where
  /-- E.BYTE d: next payload byte (`41_frame_encode.md` R92). -/
  | eByte (d : Byte)
  /-- E.EOP: end of payload (`41_frame_encode.md` R93). -/
  | eEop
  /-- D.BYTE g: next raw message byte (`42_frame_decode.md` R100). -/
  | dByte (g : Byte)
  /-- D.EOM: end of raw message (`42_frame_decode.md` R108). -/
  | dEom
  /-- W.SOX: the start byte (`42_frame_decode.md` R101). -/
  | wSox
  /-- W.BAD0: a first byte that is not 0xF0 (`42_frame_decode.md` R102). -/
  | wBad0 (g : Byte)
  /-- W.VID: the vendor id matches (`42_frame_decode.md` R103). -/
  | wVid (v : Vid)
  /-- W.BADV: the vendor id differs (`42_frame_decode.md` R104). -/
  | wBadv (g : Byte)
  /-- W.EOX: the terminator (`42_frame_decode.md` R105). -/
  | wEox
  /-- W.GRP: a body byte (`42_frame_decode.md` R106). -/
  | wGrp (g : Byte)
  /-- W.SKIP: a byte of a rejected or already terminated message (`42_frame_decode.md` R107). -/
  | wSkip
  /-- CFG.WR a, d (`43_config_ops.md` R120). -/
  | cfgWr (a : CfgAddr) (d : Byte)
  /-- CFG.RD a (`43_config_ops.md` R121). -/
  | cfgRd (a : CfgAddr)
  /-- RESET (`43_config_ops.md` R122). -/
  | reset
deriving DecidableEq, Repr

end Sys2Proof
end

