-- ==== Sys2Proof/Machine/Dispatch.lean ====
section
/-! DEFINITION. One arm per operation of the table (`30_encoding.md` R61). -/

namespace Sys2Proof.Machine

/-- The meaning of an operation: its own effect, the token already taken. -/
def exec (i : Instr) (s : State) : Host.Outcome State Fault Refusal :=
  match i with
  | .eByte d => Sys2Proof.Machine.execEByte d s
  | .eEop => Sys2Proof.Machine.execEEop s
  | .dByte g => Sys2Proof.Machine.execDByte g s
  | .dEom => Sys2Proof.Machine.execDEom s
  | .wSox => Sys2Proof.Machine.execWSox s
  | .wBad0 g => Sys2Proof.Machine.execWBad0 g s
  | .wVid v => Sys2Proof.Machine.execWVid v s
  | .wBadv g => Sys2Proof.Machine.execWBadv g s
  | .wEox => Sys2Proof.Machine.execWEox s
  | .wGrp g => Sys2Proof.Machine.execWGrp g s
  | .wSkip => Sys2Proof.Machine.execWSkip s
  | .cfgWr a d => Sys2Proof.Machine.execCfgWr a d s
  | .cfgRd a => Sys2Proof.Machine.execCfgRd a s
  | .reset => Sys2Proof.Machine.execReset s

end Sys2Proof.Machine
end

