-- ==== Sys2Proof/WellFormed.lean ====
section
/-! DEFINITION. Which operations are well formed: the operand values the rows of `30_encoding.md` R60 exclude, and
the position at which each wire symbol is selected. Every other operand value is legal (`60_exceptions.md` R138). -/

namespace Sys2Proof

/-- The operand restrictions of the table: W.BAD0's byte is not 0xF0 (`42_frame_decode.md` R102), W.GRP's byte is not
0xF7 (`42_frame_decode.md` R106). Everything else takes every operand value. -/
def Instr.wf : Instr → Bool
  | .eByte _ => true
  | .eEop => true
  | .dByte _ => true
  | .dEom => true
  | .wSox => true
  | .wBad0 g => g != Config.sox
  | .wVid _ => true
  | .wBadv _ => true
  | .wEox => true
  | .wGrp g => g != Config.eox
  | .wSkip => true
  | .cfgWr _ _ => true
  | .cfgRd _ => true
  | .reset => true

/-- The column "`DEC_ST`" and the condition on the vendor id of the map in `30_encoding.md` R60: at position `st`, with
`vid` in `DEC_CFG[6:0]`, a D.BYTE token can be this wire symbol. True of every operation that is not a wire symbol. -/
def Instr.selectedAt (st : DecSt) (vid : Vid) : Instr → Bool
  | .eByte _ => true
  | .eEop => true
  | .dByte _ => true
  | .dEom => true
  | .wSox => st == .hdr0
  | .wBad0 _ => st == .hdr0
  | .wVid v => st == .hdr1 && v == vid
  | .wBadv g => st == .hdr1 && g != vid.setWidth 8
  | .wEox => st == .body
  | .wGrp _ => st == .body
  | .wSkip => st == .skip
  | .cfgWr _ _ => true
  | .cfgRd _ => true
  | .reset => true

/-- The operations that are lines of a token script (`30_encoding.md` R65): all but the wire symbols. -/
def Instr.isLine : Instr → Bool
  | .eByte _ => true
  | .eEop => true
  | .dByte _ => true
  | .dEom => true
  | .wSox => false
  | .wBad0 _ => false
  | .wVid _ => false
  | .wBadv _ => false
  | .wEox => false
  | .wGrp _ => false
  | .wSkip => false
  | .cfgWr _ _ => true
  | .cfgRd _ => true
  | .reset => true

end Sys2Proof
end

