-- ==== Sys2Proof/Decode.lean ====
section
/-! DEFINITION. Decoding and encoding of the operations (`30_encoding.md` R54, R56, R60, R61). What a word means depends
on the port it arrives on, and for a wire symbol on the position of the decode half too, so the decoder takes the
format. It is total: every token and access is an operation; a number that does not fit the format, and a reset pin
that is not asserted, are rejected by name. -/

namespace Sys2Proof

/-- The formats of the operation table's column "format" (`30_encoding.md` R61). -/
inductive Format where
  /-- TE: a token on `enc_in`, 9 bits. -/
  | te
  /-- TD: a token on `dec_in`, 9 bits. -/
  | td
  /-- W: a wire symbol, the 8 data bits of a D.BYTE token. -/
  | w
  /-- CR: a configuration access, 10 bits. -/
  | cr
  /-- The `rst` input, 1 bit. -/
  | pin
deriving DecidableEq, Repr

/-- Why a number is no operation of a format. -/
inductive DecodeReject where
  /-- The number has a bit above the format's width. -/
  | tooWide
  /-- The `rst` input is 0: reset is not asserted. -/
  | resetNotAsserted
deriving DecidableEq, Repr

/-- The width of a format in bits (`30_encoding.md` R54, R56, R60; RESET: the `rst` input, `20_memory.md` R31). -/
def Format.width : Format → Nat
  | .te => 9
  | .td => 9
  | .w => 8
  | .cr => 10
  | .pin => 1

/-- A token on `enc_in` (`30_encoding.md` R54): the data bits of an end token are ignored. -/
def decodeEnc (w : InToken) : Instr :=
  if w.getLsbD 8 then .eEop else .eByte (w.extractLsb' 0 8)

/-- A token on `dec_in` (`30_encoding.md` R54): the data bits of an end token are ignored. -/
def decodeDec (w : InToken) : Instr :=
  if w.getLsbD 8 then .dEom else .dByte (w.extractLsb' 0 8)

/-- A configuration access (`30_encoding.md` R56): the data bits of a read are ignored. -/
def decodeCfg (w : Access) : Instr :=
  let a : CfgAddr := if w.getLsbD 8 then .dec else .enc
  if w.getLsbD 9 then .cfgWr a (w.extractLsb' 0 8) else .cfgRd a

/-- The wire symbol a D.BYTE's data byte is (the map of `30_encoding.md` R60, `42_frame_decode.md` R100), at position
`st` with `vid` in `DEC_CFG[6:0]`. -/
def decodeWire (st : DecSt) (vid : Vid) (g : Byte) : Instr :=
  match st with
  | .hdr0 => if g = Config.sox then .wSox else .wBad0 g
  | .hdr1 => if g = vid.setWidth 8 then .wVid (g.setWidth 7) else .wBadv g
  | .body => if g = Config.eox then .wEox else .wGrp g
  | .skip => .wSkip

/-- The decoder: the operation a number is in a format. `st` and `vid` matter to format W only. -/
def decode (st : DecSt) (vid : Vid) (f : Format) (bits : Nat) : Except DecodeReject Instr :=
  if bits < 2 ^ f.width then
    match f with
    | .te => .ok (decodeEnc (BitVec.ofNat 9 bits))
    | .td => .ok (decodeDec (BitVec.ofNat 9 bits))
    | .w => .ok (decodeWire st vid (BitVec.ofNat 8 bits))
    | .cr => .ok (decodeCfg (BitVec.ofNat 10 bits))
    | .pin => if bits = 1 then .ok .reset else .error .resetNotAsserted
  else .error .tooWide

/-- The address bit of a configuration access (`20_memory.md` R42, `30_encoding.md` R56). -/
def CfgAddr.bit : CfgAddr → Nat
  | .enc => 0
  | .dec => 1

/-- The format of an operation (`30_encoding.md` R61). -/
def Instr.format : Instr → Format
  | .eByte _ => .te
  | .eEop => .te
  | .dByte _ => .td
  | .dEom => .td
  | .wSox => .w
  | .wBad0 _ => .w
  | .wVid _ => .w
  | .wBadv _ => .w
  | .wEox => .w
  | .wGrp _ => .w
  | .wSkip => .w
  | .cfgWr _ _ => .cr
  | .cfgRd _ => .cr
  | .reset => .pin

/-- The encoder: the number of an operation in its format. Ignored bits (the data of an end token, of a read, of a
skipped byte) are encoded as 0, as a script supplies them (`30_encoding.md` R65, log 19). -/
def encode : Instr → Nat
  | .eByte d => d.toNat
  | .eEop => 0x100
  | .dByte g => g.toNat
  | .dEom => 0x100
  | .wSox => 0xF0
  | .wBad0 g => g.toNat
  | .wVid v => v.toNat
  | .wBadv g => g.toNat
  | .wEox => 0xF7
  | .wGrp g => g.toNat
  | .wSkip => 0
  | .cfgWr a d => 0x200 + a.bit * 0x100 + d.toNat
  | .cfgRd a => a.bit * 0x100
  | .reset => 1

/-- The format a bare word of `nbits` bits is read in when no port is given (log 6). Several rows of
`spec/opcode_table.json` have the same bits and differ only in the port or in `DEC_ST`; the choice is: 1 bit, the pin;
up to 8 bits, a wire symbol (the lone word 1 is the pin's); 9 bits, `enc_in`; 10 bits, `cfg`; more, `cfg` where bit 9
(`we`) is set and `enc_in` otherwise. -/
def tableFormat (nbits w : Nat) : Format :=
  if nbits ≤ 8 then (if nbits ≤ 1 || w == 1 then .pin else .w)
  else if nbits = 9 then .te
  else if nbits = 10 then .cr
  else if w.testBit 9 then .cr else .te

/-- The position of the decode half at which a bare wire byte is read (log 6): the one whose row of the map in
`30_encoding.md` R60 fixes the most of the byte's bits. -/
def tablePosition (w : Nat) : DecSt :=
  if w = 0xF0 then .hdr0
  else if w = 0xF7 then .body
  else if w < 0x80 then .hdr1
  else .hdr0

/-- The operation the decoder reads from an instruction whose bits are `w`, `nbits` of them, when nothing else is
known (log 6). -/
def decodeTableWord (nbits w : Nat) : Option Instr :=
  match decode (tablePosition w) (BitVec.ofNat 7 w) (tableFormat nbits w) w with
  | .ok i => some i
  | .error _ => none

end Sys2Proof
end

