-- ==== Sys2Proof/Machine/Fetch.lean ====
section
/-! DEFINITION. Taking the next operation from the ports (`20_memory.md` R32): which agent moves is the schedule's
(`20_memory.md` R43, log 2), the half it names takes the oldest token of its input port, and the token's bits are
decoded. Also where an operation is placed from outside so that the next step runs it (log 7). -/

namespace Sys2Proof.Machine

/-- What the schedule brings: an operation to run in a state from which its token is gone, or a state in which no
operation runs (a host's port action, or nothing to take). -/
inductive Fetched where
  | run (i : Instr) (s : State)
  | noOp (s : State)
deriving DecidableEq, Repr

/-- `Take(enc_in)` and decode; a half with no token has no step (`20_memory.md` R32). -/
def fetchEnc (s : State) : Fetched :=
  match s.encIn with
  | [] => .noOp s
  | w :: ws => .run (decodeEnc w) { s with encIn := ws }

/-- `Take(dec_in)` and decode; a half with no token has no step (`20_memory.md` R32). -/
def fetchDec (s : State) : Fetched :=
  match s.decIn with
  | [] => .noOp s
  | w :: ws => .run (decodeDec w) { s with decIn := ws }

/-- One turn of the schedule (`20_memory.md` R32, `43_config_ops.md` R123, `60_exceptions.md` R145). -/
def fetchTurn (t : Turn) (s : State) : Fetched :=
  match t with
  | .enc => fetchEnc s
  | .dec => fetchDec s
  | .cfg w => .run (decodeCfg w) s
  | .rst => .run .reset s
  | .putEnc w => .noOp { s with encIn := s.encIn ++ [w] }
  | .putDec w => .noOp { s with decIn := s.decIn ++ [w] }
  | .getEnc => .noOp { s with encOut := s.encOut.tail }
  | .getDec => .noOp { s with decOut := s.decOut.tail }

/-- The next operation. With nothing scheduled a half that has a token moves, ENC before DEC; with no token either,
both wait (log 2). -/
def fetch (s : State) : Fetched :=
  match s.turns with
  | t :: ts => fetchTurn t { s with turns := ts }
  | [] =>
    match s.encIn with
    | _ :: _ => fetchEnc s
    | [] => fetchDec s

/-- The state with a wire symbol's byte next on `dec_in` and the decode half at the position that selects the symbol. -/
def State.placeWire (s : State) (w : Nat) (d : DecRegs) : State :=
  { s with decIn := BitVec.ofNat 9 w :: s.decIn, turns := .dec :: s.turns, dec := d }

/-- The state with one operation placed to run next, by the bits `w` of its word (log 7): its token at the head of its
input port and its half's turn first; its access, or the asserted pin, as the first turn; for a wire symbol also the
position and the vendor id that select it. -/
def State.placeWord (s : State) (nbits w : Nat) : State :=
  match decodeTableWord nbits w with
  | none => s
  | some i =>
    match i with
    | .eByte _ => { s with encIn := BitVec.ofNat 9 w :: s.encIn, turns := .enc :: s.turns }
    | .eEop => { s with encIn := BitVec.ofNat 9 w :: s.encIn, turns := .enc :: s.turns }
    | .dByte _ => { s with decIn := BitVec.ofNat 9 w :: s.decIn, turns := .dec :: s.turns }
    | .dEom => { s with decIn := BitVec.ofNat 9 w :: s.decIn, turns := .dec :: s.turns }
    | .wSox => s.placeWire w { s.dec with st := .hdr0 }
    | .wBad0 _ => s.placeWire w { s.dec with st := .hdr0 }
    | .wVid v => s.placeWire w { s.dec with st := .hdr1, cfg := cfgWord (cfgMode s.dec.cfg) v }
    | .wBadv _ => s.placeWire w { s.dec with st := .hdr1 }
    | .wEox => s.placeWire w { s.dec with st := .body }
    | .wGrp _ => s.placeWire w { s.dec with st := .body }
    | .wSkip => s.placeWire w { s.dec with st := .skip }
    | .cfgWr _ _ => { s with turns := .cfg (BitVec.ofNat 10 w) :: s.turns }
    | .cfgRd _ => { s with turns := .cfg (BitVec.ofNat 10 w) :: s.turns }
    | .reset => { s with turns := .rst :: s.turns }

end Sys2Proof.Machine
end

