-- ==== Sys2Proof/Machine/Step.lean ====
section
/-! DEFINITION. One step of the machine (`00_scope.md` R8): the scheduled agent's operation is taken and performed, as one
atomic transition (`20_memory.md` R32, R39). -/

namespace Sys2Proof.Machine

/-- One step: the operation `fetch` brings, or no operation where a host's port action or a wait is all there is. -/
def step (s : State) : Host.Outcome State Fault Refusal :=
  match fetch s with
  | .run i t => exec i t
  | .noOp t => .next t

/-- `s` with the operation whose bits are `w` placed where the next step takes it (log 7). -/
def State.withFetchWord (s : State) (nbits w : Nat) : State := s.placeWord nbits w

end Sys2Proof.Machine
end

