-- ==== Sys2Proof/Machine/Codec.lean ====
section
/-! DEFINITION. The source's functions over whole byte sequences, which the spec gives beside the token steps: the
packer and unpacker (`40_bitpack.md` R70, R73, R74, R77, R78), `encode` (`41_frame_encode.md` R90) and `decode`
(`42_frame_decode.md` R109). No step calls them: the machine works token by token, and that the two agree is a claim
(R80, R96, R111). `R` and `C` are unbounded naturals here, as in the source. -/

namespace Sys2Proof.Codec

open Sys2Proof.Machine

/-! ### Encode direction -/

/-- The inner loop of `pack_bin` (`40_bitpack.md` R70): the groups emitted, and R and C afterwards. The first argument
bounds the rounds. -/
def packDrain : Nat → Nat → Nat → List Byte × Nat × Nat
  | 0, r, c => ([], r, c)
  | n + 1, r, c =>
    if 7 ≤ c then
      let rest := packDrain n (r % 2 ^ (c - 7)) (c - 7)
      (BitVec.ofNat 8 ((r >>> (c - 7)) &&& 0x7F) :: rest.1, rest.2)
    else ([], r, c)

/-- `pack_bin` from R and C on (`40_bitpack.md` R70); the emit loop is inside the loop over the bytes. -/
def packFrom : Nat → Nat → List Byte → List Byte
  | r, c, [] => if 0 < c then [BitVec.ofNat 8 ((r <<< (7 - c)) &&& 0x7F)] else []
  | r, c, b :: bs =>
    let x := packDrain (c + 8) ((r <<< 8) ||| b.toNat) (c + 8)
    x.1 ++ packFrom x.2.1 x.2.2 bs

/-- `pack_bin` (`40_bitpack.md` R70). -/
def packBin (b : List Byte) : List Byte := packFrom 0 0 b

/-- `pack_asc` (`40_bitpack.md` R73). -/
def packAsc (b : List Byte) : List Byte := b.map mask7

/-- `pack` (`40_bitpack.md` R78). -/
def pack (m : Mode) (b : List Byte) : List Byte :=
  match m with
  | .binary => packBin b
  | .ascii => packAsc b

/-- `encode` (`41_frame_encode.md` R90, `30_encoding.md` R50). -/
def encode (v : Vid) (m : Mode) (b : List Byte) : List Byte :=
  [Config.sox, vidByte v] ++ pack m b ++ [Config.eox]

/-! ### Decode direction -/

/-- The inner loop of `unpack_bin` (`40_bitpack.md` R74): the bytes emitted, and C afterwards. -/
def unpackDrain : Nat → Nat → Nat → List Byte × Nat
  | 0, _, c => ([], c)
  | n + 1, r, c =>
    if 8 ≤ c then
      let rest := unpackDrain n r (c - 8)
      (BitVec.ofNat 8 ((r >>> (c - 8)) &&& 0xFF) :: rest.1, rest.2)
    else ([], c)

/-- `unpack_bin` from R and C on (`40_bitpack.md` R74): the body byte is not masked; leftover bits are dropped. -/
def unpackFrom : Nat → Nat → List Byte → List Byte
  | _, _, [] => []
  | r, c, g :: gs =>
    let r' := (r <<< 7) ||| g.toNat
    let x := unpackDrain (c + 7) r' (c + 7)
    x.1 ++ unpackFrom (r' % 2 ^ x.2) x.2 gs

/-- `unpack_bin` (`40_bitpack.md` R74). -/
def unpackBin (g : List Byte) : List Byte := unpackFrom 0 0 g

/-- `unpack_asc` (`40_bitpack.md` R77). -/
def unpackAsc (g : List Byte) : List Byte := g.map mask7

/-- `unpack` (`40_bitpack.md` R78). -/
def unpack (m : Mode) (g : List Byte) : List Byte :=
  match m with
  | .binary => unpackBin g
  | .ascii => unpackAsc g

/-- The body of a message, from the bytes at index 2 on (`42_frame_decode.md` R109, R114): up to the first 0xF7, or to the
last byte of the message. -/
def scanBody : List Byte → List Byte
  | [] => []
  | g :: gs => if g = Config.eox then [] else g :: scanBody gs

/-- `decode` (`42_frame_decode.md` R109, R115): `none` is "rejected", `some p` is "accepted(p)". -/
def decode (v : Vid) (m : Mode) (raw : List Byte) : Option (List Byte) :=
  match raw with
  | g0 :: g1 :: rest => if g0 = Config.sox ∧ g1 = vidByte v then some (unpack m (scanBody rest)) else none
  | _ => none

/-- Why a message is rejected, if it is: the checks in byte order (`60_exceptions.md` R131, R135). -/
def rejectCause (v : Vid) (raw : List Byte) : Option RejCause :=
  match raw with
  | [] => some .short
  | [g0] => if g0 = Config.sox then some .short else some .start
  | g0 :: g1 :: _ => if g0 ≠ Config.sox then some .start else if g1 ≠ vidByte v then some .vendor else none

/-! ### The tokens a half emits for a whole payload or message -/

/-- The tokens of a frame on `enc_out`: `last` is 1 on the final byte only (`30_encoding.md` R55). -/
def frameTokens (v : Vid) (m : Mode) (b : List Byte) : List Token :=
  ([Config.sox, vidByte v] ++ pack m b).map Token.byte ++ [Token.fLast]

/-- The tokens on `dec_out` for a message (`42_frame_decode.md` R112): nothing, or the payload closed by P.END. -/
def payloadTokens (p : Option (List Byte)) : List Token :=
  match p with
  | none => []
  | some p => p.map Token.byte ++ [Token.pEnd]

/-! ### Accumulators of other widths (`40_bitpack.md` R80) -/

/-- An accumulator of `w` bits keeps the low `w` bits; `none` is the source's unbounded one. -/
def fit (w : Option Nat) (r : Nat) : Nat :=
  match w with
  | none => r
  | some k => r % 2 ^ k

/-- Discarding the bits at positions `c` and above, or not. -/
def discard (reduce : Bool) (r c : Nat) : Nat := if reduce then r % 2 ^ c else r

/-- `packDrain` with or without discarding. -/
def packDrainAny (reduce : Bool) : Nat → Nat → Nat → List Byte × Nat × Nat
  | 0, r, c => ([], r, c)
  | n + 1, r, c =>
    if 7 ≤ c then
      let rest := packDrainAny reduce n (discard reduce r (c - 7)) (c - 7)
      (BitVec.ofNat 8 ((r >>> (c - 7)) &&& 0x7F) :: rest.1, rest.2)
    else ([], r, c)

/-- `pack_bin` on an accumulator of any width, with or without discarding. -/
def packAnyFrom (w : Option Nat) (reduce : Bool) : Nat → Nat → List Byte → List Byte
  | r, c, [] => if 0 < c then [BitVec.ofNat 8 (fit w (r <<< (7 - c)) &&& 0x7F)] else []
  | r, c, b :: bs =>
    let x := packDrainAny reduce (c + 8) (fit w ((r <<< 8) ||| b.toNat)) (c + 8)
    x.1 ++ packAnyFrom w reduce x.2.1 x.2.2 bs

/-- `unpack_bin` on an accumulator of any width, with or without discarding. -/
def unpackAnyFrom (w : Option Nat) (reduce : Bool) : Nat → Nat → List Byte → List Byte
  | _, _, [] => []
  | r, c, g :: gs =>
    let r' := fit w ((r <<< 7) ||| g.toNat)
    let x := unpackDrain (c + 7) r' (c + 7)
    x.1 ++ unpackAnyFrom w reduce (discard reduce r' x.2) x.2 gs

/-! ### Closed forms (`30_encoding.md` R58, R59) -/

/-- A byte sequence as one big number, the first byte highest: the sum of `b[i] * 2^(8(n-1-i))` of R58. -/
def bytesNat : List Byte → Nat
  | [] => 0
  | b :: bs => b.toNat * 2 ^ (8 * bs.length) + bytesNat bs

/-- A body as one big number, the first group highest: the sum of `g[j] * 2^(7(m-1-j))` of R59. -/
def groupsNat : List Byte → Nat
  | [] => 0
  | g :: gs => g.toNat * 2 ^ (7 * gs.length) + groupsNat gs

/-- `ceil(8n/7)`, the body length in Binary mode (`30_encoding.md` R52). -/
def binLen (n : Nat) : Nat := (8 * n + 6) / 7

/-- The body whose bit 7 in group `j` is moved onto bit 0 of group `j - 1` (`40_bitpack.md` R84): every group masked, and
bit 0 of group `j - 1` set where group `j` has bit 7 and `j mod 8 ≠ 0`. The first argument is the index of the first
group of the list. -/
def straySettled : Nat → List Byte → List Byte
  | _, [] => []
  | _, [g] => [mask7 g]
  | j, g :: h :: gs =>
    (if h.getLsbD 7 ∧ (j + 1) % 8 ≠ 0 then mask7 g ||| 1 else mask7 g) :: straySettled (j + 1) (h :: gs)

end Sys2Proof.Codec
end

