-- ==== Sys2Proof/Machine/Instances.lean ====
section
/-! DEFINITION. Several instances of the block (`60_exceptions.md` R142, `00_scope.md` R7 `N_INST`): each has its own
registers and ports and shares nothing (log 14). -/

namespace Sys2Proof.Machine

/-- The instances, in any number. -/
abbrev Instances := List State

/-- Instance `k` takes one step and the others none. A number that is no instance's leaves everything as it is. -/
def Instances.step (sys : Instances) (k : Nat) : Instances :=
  match sys[k]? with
  | none => sys
  | some s =>
    match Sys2Proof.Machine.step s with
    | .next t => sys.set k t
    | .fault _ => sys
    | .refused _ => sys

end Sys2Proof.Machine
end

