-- ==== Sys2Proof/Machine/Script.lean ====
section
/-! DEFINITION. Token scripts and macros (`30_encoding.md` R65, R66), several steps of the machine, and a script placed on
the ports. -/

namespace Sys2Proof.Machine

/-- The operations of a script performed in order, each complete before the next (`30_encoding.md` R65). -/
def runScript : List Instr → State → Host.Outcome State Fault Refusal
  | [], s => .next s
  | i :: is, s =>
    match exec i s with
    | .next t => runScript is t
    | .fault r => .fault r
    | .refused r => .refused r

/-- `n` steps. -/
def runSteps : Nat → State → Host.Outcome State Fault Refusal
  | 0, s => .next s
  | n + 1, s =>
    match step s with
    | .next t => runSteps n t
    | .fault r => .fault r
    | .refused r => .refused r

/-- SETENC mode, vid (`30_encoding.md` R66). -/
def Script.setEnc (m : Mode) (v : Vid) : List Instr := [.cfgWr .enc (cfgWord m v)]

/-- SETDEC mode, vid (`30_encoding.md` R66). -/
def Script.setDec (m : Mode) (v : Vid) : List Instr := [.cfgWr .dec (cfgWord m v)]

/-- ENCODE payload (`30_encoding.md` R66). -/
def Script.encode (b : List Byte) : List Instr := b.map .eByte ++ [.eEop]

/-- DECODE raw (`30_encoding.md` R66). -/
def Script.decode (raw : List Byte) : List Instr := raw.map .dByte ++ [.dEom]

/-- The source's `encode(V, mode, payload)` as a script (`30_encoding.md` R66). -/
def Script.encodeFn (v : Vid) (m : Mode) (b : List Byte) : List Instr := Script.setEnc m v ++ Script.encode b

/-- The source's `decode(V, mode, raw)` as a script (`30_encoding.md` R66). -/
def Script.decodeFn (v : Vid) (m : Mode) (raw : List Byte) : List Instr := Script.setDec m v ++ Script.decode raw

/-- One line of a script placed behind what is already on the ports: its token supplied and its half's turn scheduled,
or its access or reset scheduled (`30_encoding.md` R65). A wire symbol is no line and places nothing. -/
def State.loadLine (s : State) (i : Instr) : State :=
  match i with
  | .eByte d => { s with encIn := s.encIn ++ [BitVec.ofNat 9 (encode (.eByte d))], turns := s.turns ++ [.enc] }
  | .eEop => { s with encIn := s.encIn ++ [BitVec.ofNat 9 (encode .eEop)], turns := s.turns ++ [.enc] }
  | .dByte g => { s with decIn := s.decIn ++ [BitVec.ofNat 9 (encode (.dByte g))], turns := s.turns ++ [.dec] }
  | .dEom => { s with decIn := s.decIn ++ [BitVec.ofNat 9 (encode .dEom)], turns := s.turns ++ [.dec] }
  | .wSox => s
  | .wBad0 _ => s
  | .wVid _ => s
  | .wBadv _ => s
  | .wEox => s
  | .wGrp _ => s
  | .wSkip => s
  | .cfgWr a d => { s with turns := s.turns ++ [.cfg (BitVec.ofNat 10 (encode (.cfgWr a d)))] }
  | .cfgRd a => { s with turns := s.turns ++ [.cfg (BitVec.ofNat 10 (encode (.cfgRd a)))] }
  | .reset => { s with turns := s.turns ++ [.rst] }

/-- A script placed on the ports (`30_encoding.md` R65, log 7). -/
def State.loadScript (s : State) (is : List Instr) : State := is.foldl State.loadLine s

/-- The operations of the encode half, and the accesses to its register (`10_state.md` R28). RESET is both halves'. -/
def isEncSide : Instr → Bool
  | .eByte _ => true
  | .eEop => true
  | .dByte _ => false
  | .dEom => false
  | .wSox => false
  | .wBad0 _ => false
  | .wVid _ => false
  | .wBadv _ => false
  | .wEox => false
  | .wGrp _ => false
  | .wSkip => false
  | .cfgWr a _ => a == .enc
  | .cfgRd a => a == .enc
  | .reset => true

/-- The operations of the decode half, and the accesses to its register (`10_state.md` R28). RESET is both halves'. -/
def isDecSide : Instr → Bool
  | .eByte _ => false
  | .eEop => false
  | .dByte _ => true
  | .dEom => true
  | .wSox => true
  | .wBad0 _ => true
  | .wVid _ => true
  | .wBadv _ => true
  | .wEox => true
  | .wGrp _ => true
  | .wSkip => true
  | .cfgWr a _ => a == .dec
  | .cfgRd a => a == .dec
  | .reset => true

/-- The reads of the `cfg` port, whose values HOST sees in the order it asks for them. -/
def isCfgRead : Instr → Bool
  | .eByte _ => false
  | .eEop => false
  | .dByte _ => false
  | .dEom => false
  | .wSox => false
  | .wBad0 _ => false
  | .wVid _ => false
  | .wBadv _ => false
  | .wEox => false
  | .wGrp _ => false
  | .wSkip => false
  | .cfgWr _ _ => false
  | .cfgRd _ => true
  | .reset => false

end Sys2Proof.Machine
end

