-- ==== Sys2Proof/Safety.lean ====
section
/-! DEFINITION. What claims use: the facts that hold between steps (`10_state.md` R23), and what a safe run is. A rejection
is not an error, so it does not make a run unsafe (`60_exceptions.md` R132). -/

namespace Sys2Proof.Machine

/-- `10_state.md` R23 (a), (b), (c): the encode half between steps. -/
abbrev EncRegs.Inv (e : EncRegs) : Prop :=
  (e.st = .idle → e.r = 0 ∧ e.c = 0) ∧
  (e.c.toNat ≤ 6 ∧ e.r.toNat < 2 ^ e.c.toNat) ∧
  (e.lmode = .ascii → e.r = 0 ∧ e.c = 0)

/-- `10_state.md` R23 (d), (e), (f): the decode half between steps. -/
abbrev DecRegs.Inv (d : DecRegs) : Prop :=
  (d.st ≠ .body → d.r = 0 ∧ d.c = 0) ∧
  (d.c.toNat ≤ 7 ∧ d.r.toNat < 2 ^ d.c.toNat) ∧
  (d.st = .body ∧ d.lmode = .ascii → d.r = 0 ∧ d.c = 0)

/-- `10_state.md` R23: the invariant between steps. -/
abbrev State.Inv (s : State) : Prop := s.enc.Inv ∧ s.dec.Inv

/-- A run of `n` steps is safe: it stops with no fault and no refusal (`60_exceptions.md` R132, R138), and the invariant
holds after it. -/
def SafeFor (n : Nat) (s : State) : Prop := ∃ t, runSteps n s = .next t ∧ t.Inv

end Sys2Proof.Machine
end

