-- ==== Sys2Proof/Certificates/Slice0/Obligations.lean ====
section
/-! DEFINITION. The statements for the provers. Each says in its docstring which rule of the spec it formalises. Results
are written as numbers (quotients, remainders, sums), not with the datapath's own bit operations, so that a wrong shift
or mask makes them false. A statement over states that no run reaches carries the invariant of `10_state.md` R23 as a
premise where it needs it; the invariant itself is `StepKeepsInvariant`. -/

open Sys2Proof Sys2Proof.Machine

/-! ### Encoding -/

/-- `30_encoding.md` R54, R56, R60: at every position that selects it, an operation's encoding decodes to it, with every
operand at every value the encoding admits. -/
def Obligations.DecodeOfEncodeIsTheInstruction : Prop :=
  ∀ (st : DecSt) (vid : Vid) (i : Instr), i.wf = true → i.selectedAt st vid = true →
    decode st vid i.format (encode i) = .ok i

/-- `30_encoding.md` R60: a wire symbol is what a byte decodes to exactly when its row applies, so exactly one row applies
to every position and byte. -/
def Obligations.WireByteIsExactlyOneSymbol : Prop :=
  ∀ (st : DecSt) (vid : Vid) (g : Byte) (i : Instr),
    decodeWire st vid g = i ↔
      i.format = .w ∧ i.wf = true ∧ i.selectedAt st vid = true ∧ (i = .wSkip ∨ encode i = g.toNat)

/-- `30_encoding.md` R54, R55, R56: every token, every access, every data field; the data of an end token and of a read
are ignored; the formats of the output tokens. -/
def Obligations.EveryTokenAndAccessIsLegal : Prop :=
  ∀ (st : DecSt) (vid : Vid) (x : Byte) (a : CfgAddr),
    decode st vid .te x.toNat = .ok (.eByte x) ∧
    decode st vid .te (256 + x.toNat) = .ok .eEop ∧
    decode st vid .td x.toNat = .ok (.dByte x) ∧
    decode st vid .td (256 + x.toNat) = .ok .dEom ∧
    decode st vid .cr (512 + 256 * a.bit + x.toNat) = .ok (.cfgWr a x) ∧
    decode st vid .cr (256 * a.bit + x.toNat) = .ok (.cfgRd a) ∧
    (Token.byte x).bits.toNat = x.toNat ∧
    Token.pEnd.bits.toNat = 256 ∧
    Token.fLast.bits.toNat = 256 + 0xF7

/-- Words written out from `30_encoding.md` R54, R56, R60 decode to the operations they stand for. -/
def Obligations.WrittenOutWordsDecode : Prop :=
  decode .hdr0 0x7D .te 0b000111111 = .ok (.eByte 0x3F) ∧
  decode .hdr0 0x7D .te 0b110101011 = .ok .eEop ∧
  decode .hdr0 0x7D .td 0b011110000 = .ok (.dByte 0xF0) ∧
  decode .hdr0 0x7D .td 0b100000000 = .ok .dEom ∧
  decode .hdr0 0x7D .w 0b11110000 = .ok .wSox ∧
  decode .hdr1 0x7D .w 0b01111101 = .ok (.wVid 0x7D) ∧
  decode .body 0x7D .w 0b11110111 = .ok .wEox ∧
  decode .hdr0 0x7D .cr 0b1111111101 = .ok (.cfgWr .dec 0xFD) ∧
  decode .hdr0 0x7D .cr 0b0100000000 = .ok (.cfgRd .dec) ∧
  decode .hdr0 0x7D .pin 0b1 = .ok .reset

/-! ### The step -/

/-- `20_memory.md` R32, `43_config_ops.md` R123: a scheduled half takes the oldest token of its input port and performs the
operation its bits decode to; a scheduled access and a scheduled reset are performed. That the schedule is data of the
state is the model's choice (log 2). -/
def Obligations.StepRunsTheDecodedInstruction : Prop :=
  ∀ (s : State) (ts : List Turn) (w : InToken) (ws : List InToken) (x : Access),
    (s.turns = .enc :: ts → s.encIn = w :: ws → step s = exec (decodeEnc w) { s with turns := ts, encIn := ws }) ∧
    (s.turns = .dec :: ts → s.decIn = w :: ws → step s = exec (decodeDec w) { s with turns := ts, decIn := ws }) ∧
    (s.turns = .cfg x :: ts → step s = exec (decodeCfg x) { s with turns := ts }) ∧
    (s.turns = .rst :: ts → step s = exec .reset { s with turns := ts })

/-- The model's choice (log 2), within the freedom of `20_memory.md` R43: with nothing scheduled a half that has a token
moves, ENC before DEC, and with no token either the machine waits as it is. -/
def Obligations.StepWithNothingScheduled : Prop :=
  ∀ (s : State) (w : InToken) (ws : List InToken), s.turns = [] →
    (s.encIn = w :: ws → step s = exec (decodeEnc w) { s with encIn := ws }) ∧
    (s.encIn = [] → s.decIn = w :: ws → step s = exec (decodeDec w) { s with decIn := ws }) ∧
    (s.encIn = [] → s.decIn = [] → step s = .next s)

/-- `20_memory.md` R32 and `60_exceptions.md` R145: HOST's port actions; a half scheduled with no token has no step, and
the turn passes (log 3). -/
def Obligations.HostPortActions : Prop :=
  ∀ (s : State) (ts : List Turn) (w : InToken),
    (s.turns = .putEnc w :: ts → step s = .next { s with turns := ts, encIn := s.encIn ++ [w] }) ∧
    (s.turns = .putDec w :: ts → step s = .next { s with turns := ts, decIn := s.decIn ++ [w] }) ∧
    (s.turns = .getEnc :: ts → step s = .next { s with turns := ts, encOut := s.encOut.drop 1 }) ∧
    (s.turns = .getDec :: ts → step s = .next { s with turns := ts, decOut := s.decOut.drop 1 }) ∧
    (s.turns = .enc :: ts → s.encIn = [] → step s = .next { s with turns := ts }) ∧
    (s.turns = .dec :: ts → s.decIn = [] → step s = .next { s with turns := ts })

/-- The model's choice of how a script is placed (log 7): with the lines of a script (`30_encoding.md` R65) placed by
`State.loadScript` on the ports and the schedule of a machine with nothing else on them, the machine runs line by line,
each step one operation. -/
def Obligations.PlacedScriptRunsLineByLine : Prop :=
  ∀ (is : List Instr) (s : State), (∀ i ∈ is, i.isLine = true) → s.turns = [] → s.encIn = [] → s.decIn = [] →
    runSteps is.length (s.loadScript is) = runScript is s

/-- No fault and no refusal (`60_exceptions.md` R130, R138), as the model totals its functions: `exec` of a wire symbol at a
position that does not select it answers a next state by the model's choice (log 5), and a turn that finds an empty port,
or a machine with nothing to do, is a step that waits by the model's choice (log 2, log 3), where `20_memory.md` R32 gives a
half a step only with a token waiting. -/
def Obligations.NothingEverStops : Prop :=
  (∀ (i : Instr) (s : State), ∃ t, exec i s = .next t) ∧ (∀ s : State, ∃ t, step s = .next t)

/-- `60_exceptions.md` R138: waiting tokens are all taken, one a step, under the model's schedule (log 2). -/
def Obligations.WaitingTokensAreTaken : Prop :=
  ∀ s : State, s.turns = [] →
    ∃ t, runSteps (s.encIn.length + s.decIn.length) s = .next t ∧ t.encIn = [] ∧ t.decIn = [] ∧ t.turns = []

/-! ### The encode half -/

/-- `41_frame_encode.md` R91, R92 in IDLE: the header with the configured vendor id, the mode latched, then the body token
of the first byte; in Binary mode the group `d[7:1]`, with `d[0]` left pending. -/
def Obligations.FirstPayloadByteStartsTheFrame : Prop :=
  ∀ (d : Byte) (s : State), s.enc.Inv → s.enc.st = .idle →
    (s.enc.cfg.toNat < 128 →
      exec (.eByte d) s = .next { s with
        enc := { s.enc with st := .body, lmode := .binary, r := BitVec.ofNat 14 (d.toNat % 2), c := 1 }
        encOut := s.encOut ++ [⟨false, 0xF0⟩, ⟨false, s.enc.cfg⟩, ⟨false, BitVec.ofNat 8 (d.toNat / 2)⟩] }) ∧
    (128 ≤ s.enc.cfg.toNat →
      exec (.eByte d) s = .next { s with
        enc := { s.enc with st := .body, lmode := .ascii }
        encOut := s.encOut ++
          [⟨false, 0xF0⟩, ⟨false, BitVec.ofNat 8 (s.enc.cfg.toNat - 128)⟩, ⟨false, BitVec.ofNat 8 (d.toNat % 128)⟩] })

/-- `40_bitpack.md` R71, PACK.B8 through E.BYTE: with fewer than six bits pending one group, the pending bits on top of the
high bits of the byte; with six pending two groups, and nothing left. -/
def Obligations.BinaryBytePacksOneOrTwoGroups : Prop :=
  ∀ (b : Byte) (s : State), s.enc.Inv → s.enc.st = .body → s.enc.lmode = .binary →
    (s.enc.c.toNat < 6 →
      exec (.eByte b) s = .next { s with
        enc := { s.enc with
          r := BitVec.ofNat 14 (b.toNat % 2 ^ (s.enc.c.toNat + 1)), c := BitVec.ofNat 4 (s.enc.c.toNat + 1) }
        encOut := s.encOut ++
          [⟨false, BitVec.ofNat 8 (s.enc.r.toNat * 2 ^ (7 - s.enc.c.toNat) + b.toNat / 2 ^ (s.enc.c.toNat + 1))⟩] }) ∧
    (s.enc.c.toNat = 6 →
      exec (.eByte b) s = .next { s with
        enc := { s.enc with r := 0, c := 0 }
        encOut := s.encOut ++
          [⟨false, BitVec.ofNat 8 (s.enc.r.toNat * 2 + b.toNat / 128)⟩, ⟨false, BitVec.ofNat 8 (b.toNat % 128)⟩] })

/-- `40_bitpack.md` R73, PACK.A through E.BYTE: one body byte, the payload byte without bit 7; no register changes. -/
def Obligations.AsciiBytePassesSevenBits : Prop :=
  ∀ (b : Byte) (s : State), s.enc.st = .body → s.enc.lmode = .ascii →
    exec (.eByte b) s = .next { s with encOut := s.encOut ++ [⟨false, BitVec.ofNat 8 (b.toNat % 128)⟩] }

/-- `41_frame_encode.md` R93, with R94 and `40_bitpack.md` R72: E.EOP in IDLE gives the whole empty frame; in BODY the padded
group where bits are pending, then the closing byte; afterwards IDLE, R and C 0. The token's data bits are ignored. -/
def Obligations.EndOfPayloadClosesTheFrame : Prop :=
  ∀ (x : Byte) (s : State), s.enc.Inv →
    decodeEnc (BitVec.ofNat 9 (256 + x.toNat)) = .eEop ∧
    (s.enc.st = .idle → s.enc.cfg.toNat < 128 →
      exec .eEop s = .next { s with
        enc := { s.enc with lmode := .binary }
        encOut := s.encOut ++ [⟨false, 0xF0⟩, ⟨false, s.enc.cfg⟩, ⟨true, 0xF7⟩] }) ∧
    (s.enc.st = .idle → 128 ≤ s.enc.cfg.toNat →
      exec .eEop s = .next { s with
        enc := { s.enc with lmode := .ascii }
        encOut := s.encOut ++ [⟨false, 0xF0⟩, ⟨false, BitVec.ofNat 8 (s.enc.cfg.toNat - 128)⟩, ⟨true, 0xF7⟩] }) ∧
    (s.enc.st = .body → s.enc.c.toNat = 0 →
      exec .eEop s = .next { s with
        enc := { s.enc with st := .idle, r := 0, c := 0 }
        encOut := s.encOut ++ [⟨true, 0xF7⟩] }) ∧
    (s.enc.st = .body → 0 < s.enc.c.toNat →
      exec .eEop s = .next { s with
        enc := { s.enc with st := .idle, r := 0, c := 0 }
        encOut := s.encOut ++
          [⟨false, BitVec.ofNat 8 (s.enc.r.toNat * 2 ^ (7 - s.enc.c.toNat))⟩, ⟨true, 0xF7⟩] })

/-- `41_frame_encode.md` R98: the number of tokens each step of ENC emits. -/
def Obligations.EncoderTokensPerStep : Prop :=
  ∀ (d : Byte) (s : State), s.enc.Inv → ∃ t u outB outE,
    exec (.eByte d) s = .next t ∧ t.encOut = s.encOut ++ outB ∧
    exec .eEop s = .next u ∧ u.encOut = s.encOut ++ outE ∧
    outB.length = (match s.enc.st with
      | .idle => 3
      | .body => if s.enc.lmode = .binary ∧ s.enc.c.toNat = 6 then 2 else 1) ∧
    outE.length = (match s.enc.st with
      | .idle => 3
      | .body => if s.enc.lmode = .binary ∧ 0 < s.enc.c.toNat then 2 else 1)

/-- The frame of E.BYTE and E.EOP (`10_state.md` R28, `20_memory.md` R32): in every state they leave everything but
`ENC_ST`, `ENC_LMODE`, `ENC_R`, `ENC_C` and what they append to `enc_out`; in a frame in progress `ENC_LMODE` too (R14). -/
def Obligations.EncoderLeavesTheRest : Prop :=
  ∀ (i : Instr) (s : State), ((∃ d, i = .eByte d) ∨ i = .eEop) →
    ∃ t out, exec i s = .next t ∧
      t = { s with enc := t.enc, encOut := s.encOut ++ out } ∧
      t.enc.cfg = s.enc.cfg ∧
      (s.enc.st = .body → t.enc.lmode = s.enc.lmode)

/-- `41_frame_encode.md` R96: a payload fed token by token gives exactly the bytes of `encode`, `last` on the final one
only, and ENC is back at rest; nothing else changes. -/
def Obligations.EncodedTokensAreTheFrame : Prop :=
  ∀ (m : Mode) (v : Vid) (b : List Byte) (s : State),
    s.enc.st = .idle → s.enc.r = 0 → s.enc.c = 0 → s.enc.cfg = cfgWord m v →
    ∃ out, runScript (Script.encode b) s =
        .next { s with enc := { s.enc with lmode := m }, encOut := s.encOut ++ out } ∧
      out.map Token.data = Codec.encode v m b ∧
      out.map Token.flag = List.replicate (out.length - 1) false ++ [true]

/-- `20_memory.md` R44, `00_scope.md` R5: a sequence of payloads gives the concatenation of their frames, one frame each. -/
def Obligations.EveryPayloadGivesOneFrame : Prop :=
  ∀ (m : Mode) (v : Vid) (bs : List (List Byte)) (s : State),
    s.enc.st = .idle → s.enc.r = 0 → s.enc.c = 0 → s.enc.cfg = cfgWord m v →
    ∃ t, runScript (bs.flatMap Script.encode) s = .next t ∧
      t.encOut = s.encOut ++ bs.flatMap (Codec.frameTokens v m) ∧
      t.enc.st = .idle ∧ t.enc.r = 0 ∧ t.enc.c = 0 ∧ t.enc.cfg = s.enc.cfg ∧ t.dec = s.dec

/-! ### The decode half -/

/-- `42_frame_decode.md` R100: a `dec_in` token with `end = 0` is D.BYTE, and D.BYTE performs the wire symbol that its
position and byte select, in every state. -/
def Obligations.ByteActsAsItsWireSymbol : Prop :=
  ∀ (g : Byte) (s : State),
    decodeDec (BitVec.ofNat 9 g.toNat) = .dByte g ∧
    exec (.dByte g) s = exec (decodeWire s.dec.st (s.dec.cfg.extractLsb' 0 7) g) s

/-- `42_frame_decode.md` R101: the start byte at index 0. -/
def Obligations.StartByteOpensTheMessage : Prop :=
  ∀ s : State, s.dec.st = .hdr0 →
    exec .wSox s = .next { s with dec := { s.dec with st := .hdr1 } } ∧
    exec (.dByte 0xF0) s = .next { s with dec := { s.dec with st := .hdr1 } }

/-- `42_frame_decode.md` R102, `60_exceptions.md` R131: any other first byte rejects the message, silently; the label goes
to the model's history (log 4). -/
def Obligations.OtherFirstByteRejects : Prop :=
  ∀ (g : Byte) (s : State), s.dec.st = .hdr0 → g.toNat ≠ 0xF0 →
    exec (.wBad0 g) s = .next { s with dec := { s.dec with st := .skip }, rejects := s.rejects ++ [.start] } ∧
    exec (.dByte g) s = .next { s with dec := { s.dec with st := .skip }, rejects := s.rejects ++ [.start] }

/-- `42_frame_decode.md` R103: the configured vendor id at index 1 accepts the message and latches the mode. -/
def Obligations.ConfiguredVendorAccepts : Prop :=
  ∀ (v : Vid) (s : State), s.dec.st = .hdr1 → s.dec.cfg.toNat % 128 = v.toNat →
    ∃ m : Mode, (m = .ascii ↔ 128 ≤ s.dec.cfg.toNat) ∧
      exec (.wVid v) s = .next { s with dec := { s.dec with st := .body, lmode := m, r := 0, c := 0 } } ∧
      exec (.dByte (BitVec.ofNat 8 v.toNat)) s =
        .next { s with dec := { s.dec with st := .body, lmode := m, r := 0, c := 0 } }

/-- `42_frame_decode.md` R104, `60_exceptions.md` R131: any other byte at index 1 rejects the message, silently; the label
goes to the model's history (log 4). -/
def Obligations.OtherVendorRejects : Prop :=
  ∀ (g : Byte) (s : State), s.dec.st = .hdr1 → g.toNat ≠ s.dec.cfg.toNat % 128 →
    exec (.wBadv g) s = .next { s with dec := { s.dec with st := .skip }, rejects := s.rejects ++ [.vendor] } ∧
    exec (.dByte g) s = .next { s with dec := { s.dec with st := .skip }, rejects := s.rejects ++ [.vendor] }

/-- `42_frame_decode.md` R105, `40_bitpack.md` R76: the terminator ends the payload in either mode, whatever is pending. -/
def Obligations.TerminatorEndsThePayload : Prop :=
  ∀ s : State, s.dec.st = .body →
    exec .wEox s = .next { s with
      dec := { s.dec with st := .skip, r := 0, c := 0 }, decOut := s.decOut ++ [⟨true, 0⟩] } ∧
    exec (.dByte 0xF7) s = .next { s with
      dec := { s.dec with st := .skip, r := 0, c := 0 }, decOut := s.decOut ++ [⟨true, 0⟩] }

/-- `40_bitpack.md` R75, UNPK.G7 through W.GRP and D.BYTE: with nothing pending the group is kept; otherwise one byte, the
pending bits on top, ORed with the unmasked body byte, and the rest kept. -/
def Obligations.BinaryGroupUnpacksAtMostOneByte : Prop :=
  ∀ (g : Byte) (s : State), s.dec.Inv → s.dec.st = .body → s.dec.lmode = .binary → g.toNat ≠ 0xF7 →
    (s.dec.c.toNat = 0 →
      exec (.wGrp g) s = .next { s with dec := { s.dec with r := BitVec.ofNat 14 (g.toNat % 128), c := 7 } }) ∧
    (0 < s.dec.c.toNat →
      exec (.wGrp g) s = .next { s with
        dec := { s.dec with
          r := BitVec.ofNat 14 (g.toNat % 2 ^ (s.dec.c.toNat - 1)), c := BitVec.ofNat 4 (s.dec.c.toNat - 1) }
        decOut := s.decOut ++
          [⟨false, BitVec.ofNat 8
            ((s.dec.r.toNat * 2 ^ (8 - s.dec.c.toNat)) ||| (g.toNat / 2 ^ (s.dec.c.toNat - 1)))⟩] }) ∧
    exec (.dByte g) s = exec (.wGrp g) s

/-- `40_bitpack.md` R77, UNPK.A through W.GRP and D.BYTE: one payload byte, the body byte without bit 7; no register
changes. -/
def Obligations.AsciiBodyByteGivesSevenBits : Prop :=
  ∀ (g : Byte) (s : State), s.dec.st = .body → s.dec.lmode = .ascii → g.toNat ≠ 0xF7 →
    exec (.wGrp g) s = .next { s with decOut := s.decOut ++ [⟨false, BitVec.ofNat 8 (g.toNat % 128)⟩] } ∧
    exec (.dByte g) s = .next { s with decOut := s.decOut ++ [⟨false, BitVec.ofNat 8 (g.toNat % 128)⟩] }

/-- `42_frame_decode.md` R107: in SKIP a byte changes nothing and emits nothing. -/
def Obligations.SkippedByteChangesNothing : Prop :=
  ∀ (g : Byte) (s : State), s.dec.st = .skip → exec .wSkip s = .next s ∧ exec (.dByte g) s = .next s

/-- `42_frame_decode.md` R108, `60_exceptions.md` R131, R137: the end of the message from every position; the label of a
short message goes to the model's history (log 4). -/
def Obligations.EndOfMessageReturnsToStart : Prop :=
  ∀ s : State,
    (s.dec.st = .hdr0 ∨ s.dec.st = .hdr1 →
      exec .dEom s = .next { s with
        dec := { s.dec with st := .hdr0, r := 0, c := 0 }, rejects := s.rejects ++ [.short] }) ∧
    (s.dec.st = .body →
      exec .dEom s = .next { s with
        dec := { s.dec with st := .hdr0, r := 0, c := 0 }, decOut := s.decOut ++ [⟨true, 0⟩] }) ∧
    (s.dec.st = .skip →
      exec .dEom s = .next { s with dec := { s.dec with st := .hdr0, r := 0, c := 0 } })

/-- The step part of `42_frame_decode.md` R118, with R106: how many tokens a step of DEC emits. -/
def Obligations.DecoderTokensPerStep : Prop :=
  ∀ (g : Byte) (s : State), s.dec.Inv → ∃ t u outB outE,
    exec (.dByte g) s = .next t ∧ t.decOut = s.decOut ++ outB ∧
    exec .dEom s = .next u ∧ u.decOut = s.decOut ++ outE ∧
    outB.length = (match s.dec.st with
      | .body => if g.toNat ≠ 0xF7 ∧ s.dec.lmode = .binary ∧ s.dec.c.toNat = 0 then 0 else 1
      | .hdr0 | .hdr1 | .skip => 0) ∧
    outE.length = (match s.dec.st with
      | .body => 1
      | .hdr0 | .hdr1 | .skip => 0)

/-- The frame of D.BYTE, D.EOM and the wire symbols (`10_state.md` R28, `20_memory.md` R32): they leave everything but
`DEC_ST`, `DEC_LMODE`, `DEC_R`, `DEC_C`, what they append to `dec_out` and the model's history of rejections (log 4); and
only the step that accepts the vendor id loads `DEC_LMODE` (R18). It holds in every state; for a wire symbol at a position
that does not select it that is the model's choice (log 5). -/
def Obligations.DecoderLeavesTheRest : Prop :=
  ∀ (i : Instr) (s : State), ((∃ g, i = .dByte g) ∨ i = .dEom ∨ i.format = .w) →
    ∃ t out why, exec i s = .next t ∧
      t = { s with dec := t.dec, decOut := s.decOut ++ out, rejects := s.rejects ++ why } ∧
      t.dec.cfg = s.dec.cfg ∧
      ((∀ v, i ≠ .wVid v) → s.dec.st ≠ .hdr1 ∨ t.dec.st ≠ .body → t.dec.lmode = s.dec.lmode)

/-- `42_frame_decode.md` R111, with R112 and `60_exceptions.md` R131, R135: a message fed byte by byte gives exactly what
`decode` says, nothing for a rejected message, and DEC is back at rest; the model's history (log 4) gains the label of the
first failing check; nothing else changes. -/
def Obligations.DecodedTokensAreThePayload : Prop :=
  ∀ (m : Mode) (v : Vid) (raw : List Byte) (s : State),
    s.dec.st = .hdr0 → s.dec.r = 0 → s.dec.c = 0 → s.dec.cfg = cfgWord m v →
    runScript (Script.decode raw) s = .next { s with
      dec := { s.dec with lmode := if Codec.decode v m raw = none then s.dec.lmode else m }
      decOut := s.decOut ++ (match Codec.decode v m raw with
        | none => []
        | some p => p.map (fun d => ⟨false, d⟩) ++ [⟨true, 0⟩])
      rejects := s.rejects ++ (Codec.rejectCause v raw).toList }

/-- `20_memory.md` R44, `42_frame_decode.md` R112: a sequence of messages gives the payloads of the accepted ones, in order,
and one bad message never affects the next. -/
def Obligations.EveryMessageGivesAtMostOnePayload : Prop :=
  ∀ (m : Mode) (v : Vid) (raws : List (List Byte)) (s : State),
    s.dec.st = .hdr0 → s.dec.r = 0 → s.dec.c = 0 → s.dec.cfg = cfgWord m v →
    ∃ t, runScript (raws.flatMap Script.decode) s = .next t ∧
      t.decOut = s.decOut ++ raws.flatMap (fun raw => Codec.payloadTokens (Codec.decode v m raw)) ∧
      t.dec.st = .hdr0 ∧ t.dec.r = 0 ∧ t.dec.c = 0 ∧ t.dec.cfg = s.dec.cfg ∧ t.enc = s.enc

/-! ### Configuration and reset -/

/-- `43_config_ops.md` R120: an access with `we = 1` writes all eight bits of the addressed register and nothing else, in
every state. -/
def Obligations.ConfigurationWrite : Prop :=
  ∀ (d : Byte) (s : State),
    decodeCfg (BitVec.ofNat 10 (512 + d.toNat)) = .cfgWr .enc d ∧
    decodeCfg (BitVec.ofNat 10 (512 + 256 + d.toNat)) = .cfgWr .dec d ∧
    exec (.cfgWr .enc d) s = .next { s with enc := { s.enc with cfg := d } } ∧
    exec (.cfgWr .dec d) s = .next { s with dec := { s.dec with cfg := d } }

/-- `43_config_ops.md` R121: an access with `we = 0`, its data ignored, returns the configuration register and changes no
register; that is the last value written, or 0x7D if none was since reset, whatever else ran in between. The value returned
is appended to the model's record (log 16); that a wire symbol may run in between at any position is log 5. -/
def Obligations.ReadReturnsTheLastWrite : Prop :=
  ∀ (x d : Byte) (a : CfgAddr) (is : List Instr) (s : State),
    decodeCfg (BitVec.ofNat 10 x.toNat) = .cfgRd .enc ∧
    decodeCfg (BitVec.ofNat 10 (256 + x.toNat)) = .cfgRd .dec ∧
    exec (.cfgRd .enc) s = .next { s with rdata := s.rdata ++ [s.enc.cfg] } ∧
    exec (.cfgRd .dec) s = .next { s with rdata := s.rdata ++ [s.dec.cfg] } ∧
    ((∀ i ∈ is, i ≠ .reset ∧ ∀ d', i ≠ .cfgWr a d') →
      (∃ t, runScript ([.cfgWr a d] ++ is ++ [.cfgRd a]) s = .next t ∧ t.rdata.getLast? = some d) ∧
      (∃ t, runScript ([.reset] ++ is ++ [.cfgRd a]) s = .next t ∧ t.rdata.getLast? = some 0x7D))

/-- `43_config_ops.md` R122, `70_reset_and_hazards.md` R151: the ten registers, and nothing on any port, in every state; the
encoding is the asserted `rst` input. -/
def Obligations.ResetClearsBothHalves : Prop :=
  ∀ s : State, decode s.dec.st (s.dec.cfg.extractLsb' 0 7) .pin 1 = .ok .reset ∧ exec .reset s = .next { s with
    enc := { cfg := 0x7D, st := .idle, lmode := .binary, r := 0, c := 0 }
    dec := { cfg := 0x7D, st := .hdr0, lmode := .binary, r := 0, c := 0 } }

/-- `10_state.md` R29: the reset values. -/
def Obligations.ResetValues : Prop :=
  State.reset.enc.cfg = 0x7D ∧ State.reset.enc.st = .idle ∧ State.reset.enc.lmode.code = 0 ∧
  State.reset.enc.r = 0 ∧ State.reset.enc.c = 0 ∧
  State.reset.dec.cfg = 0x7D ∧ State.reset.dec.st = .hdr0 ∧ State.reset.dec.lmode.code = 0 ∧
  State.reset.dec.r = 0 ∧ State.reset.dec.c = 0

/-- `43_config_ops.md` R122's example: from any state RESET then E.EOP emits the empty frame of vendor 0x7D. -/
def Obligations.EmptyFrameAfterReset : Prop :=
  ∀ s : State, ∃ t, runScript [.reset, .eEop] s = .next t ∧
    t.encOut = s.encOut ++ [⟨false, 0xF0⟩, ⟨false, 0x7D⟩, ⟨true, 0xF7⟩] ∧ t.decOut = s.decOut ∧
    t.enc = State.reset.enc ∧ t.dec = State.reset.dec

/-- `20_memory.md` R46: ENC reads `ENC_CFG` at the first token of a frame only, DEC reads `DEC_CFG` at index 1 only; anywhere
else a token's effect is the same whatever the register holds. -/
def Obligations.ConfigurationIsSampledOnce : Prop :=
  ∀ (w : Byte) (s : State),
    (∀ i : Instr, ((∃ d, i = .eByte d) ∨ i = .eEop) → s.enc.st = .body →
      ∃ t, exec i s = .next t ∧
        exec i { s with enc := { s.enc with cfg := w } } = .next { t with enc := { t.enc with cfg := w } }) ∧
    (∀ i : Instr, ((∃ g, i = .dByte g) ∧ s.dec.st ≠ .hdr1 ∨ i = .dEom) →
      ∃ t, exec i s = .next t ∧
        exec i { s with dec := { s.dec with cfg := w } } = .next { t with dec := { t.dec with cfg := w } })

/-! ### The whole machine -/

/-- `10_state.md` R28: every operation but RESET is one half's (its tokens, and the accesses to its register); it reads
that half's registers only, and leaves the other half's as they are. RESET reads neither. For a wire symbol at a position
that does not select it this is the model's choice (log 5), and returned values are appended to the model's record (log 16). -/
def Obligations.HalvesShareNothing : Prop :=
  ∀ (i : Instr) (s₁ s₂ : State),
    (isEncSide i = true ∨ isDecSide i = true) ∧
    (isEncSide i = true → i ≠ .reset → s₁.enc = s₂.enc →
      ∃ t₁ t₂ out rd, exec i s₁ = .next t₁ ∧ exec i s₂ = .next t₂ ∧ t₁.enc = t₂.enc ∧
        t₁.encOut = s₁.encOut ++ out ∧ t₂.encOut = s₂.encOut ++ out ∧
        t₁.rdata = s₁.rdata ++ rd ∧ t₂.rdata = s₂.rdata ++ rd ∧
        t₁.dec = s₁.dec ∧ t₂.dec = s₂.dec ∧ t₁.decOut = s₁.decOut ∧ t₂.decOut = s₂.decOut) ∧
    (isDecSide i = true → i ≠ .reset → s₁.dec = s₂.dec →
      ∃ t₁ t₂ out rd, exec i s₁ = .next t₁ ∧ exec i s₂ = .next t₂ ∧ t₁.dec = t₂.dec ∧
        t₁.decOut = s₁.decOut ++ out ∧ t₂.decOut = s₂.decOut ++ out ∧
        t₁.rdata = s₁.rdata ++ rd ∧ t₂.rdata = s₂.rdata ++ rd ∧
        t₁.enc = s₁.enc ∧ t₂.enc = s₂.enc ∧ t₁.encOut = s₁.encOut ∧ t₂.encOut = s₂.encOut) ∧
    (∃ t₁ t₂, exec .reset s₁ = .next t₁ ∧ exec .reset s₂ = .next t₂ ∧ t₁.enc = t₂.enc ∧ t₁.dec = t₂.dec)

/-- `20_memory.md` R43, `10_state.md` R28: two scripts that give each half the same operations in the same order, and the
`cfg` port the same reads in the same order, end in the same state, however the halves are interleaved. That the reads'
order is compared is the model's record of them (log 16), and a wire symbol may stand as an operation of DEC at any position
by the model's choice (log 5). -/
def Obligations.InterleavingIsInvisible : Prop :=
  ∀ (is js : List Instr) (s : State),
    is.filter isEncSide = js.filter isEncSide → is.filter isDecSide = js.filter isDecSide →
    is.filter isCfgRead = js.filter isCfgRead →
    ∃ t, runScript is s = .next t ∧ runScript js s = .next t

/-- `60_exceptions.md` R131: the model's history of rejection labels (log 4) is never read. -/
def Obligations.RejectionHistoryIsNeverRead : Prop :=
  ∀ (s : State) (h : List RejCause), ∃ t new,
    step s = .next t ∧ t.rejects = s.rejects ++ new ∧
    step { s with rejects := h } = .next { t with rejects := h ++ new }

/-- `10_state.md` R23 holds at reset. -/
def Obligations.ResetMeetsInvariant : Prop := State.reset.Inv

/-- `10_state.md` R23: every step of the machine keeps the invariant, from every state that meets it. -/
def Obligations.StepKeepsInvariant : Prop :=
  ∀ s t : State, s.Inv → step s = .next t → t.Inv

/-- `10_state.md` R23 and `60_exceptions.md` R138 over runs of every length, from every state that meets the invariant. -/
def Obligations.EveryRunIsSafe : Prop :=
  ∀ (n : Nat) (s : State), s.Inv → SafeFor n s

/-- `10_state.md` R12, R16: the bit counters after `n` payload bytes of a Binary frame and after `m` groups of a Binary
body. -/
def Obligations.BitCountersCountModulo : Prop :=
  (∀ (b : List Byte) (s : State), s.enc.Inv → s.enc.st = .idle → s.enc.cfg.toNat < 128 →
    ∃ t, runScript (b.map .eByte) s = .next t ∧ t.enc.c.toNat = b.length % 7) ∧
  (∀ (g : List Byte) (s : State), s.dec.Inv → s.dec.st = .body → s.dec.lmode = .binary → s.dec.c = 0 →
    (∀ x ∈ g, x.toNat ≠ 0xF7) →
    ∃ t, runScript (g.map .dByte) s = .next t ∧ t.dec.c.toNat = (7 * g.length) % 8)

/-- `60_exceptions.md` R142, over the model's list of instances (log 14): one instance's step changes that instance only,
and by its own state alone. -/
def Obligations.InstancesAreIndependent : Prop :=
  ∀ (sys : Instances) (k j : Nat),
    (Instances.step sys k).length = sys.length ∧
    (j ≠ k → (Instances.step sys k)[j]? = sys[j]?) ∧
    (∀ s, sys[k]? = some s → ∃ t, step s = .next t ∧ (Instances.step sys k)[k]? = some t)

/-! ### The functions over whole sequences -/

/-- `30_encoding.md` R58: the closed form of the Binary body. -/
def Obligations.PackedBodyClosedForm : Prop :=
  ∀ b : List Byte,
    (Codec.packBin b).length = (8 * b.length + 6) / 7 ∧
    ∀ j, j < (8 * b.length + 6) / 7 →
      ((Codec.packBin b)[j]?).map BitVec.toNat = some
        (Codec.bytesNat b * 2 ^ (7 * ((8 * b.length + 6) / 7) - 8 * b.length)
          / 2 ^ (7 * ((8 * b.length + 6) / 7 - 1 - j)) % 128)

/-- `30_encoding.md` R59: the closed form of the Binary payload of a body of bytes below 0x80. -/
def Obligations.UnpackedPayloadClosedForm : Prop :=
  ∀ g : List Byte, (∀ x ∈ g, x.toNat < 128) →
    (Codec.unpackBin g).length = 7 * g.length / 8 ∧
    ∀ i, i < 7 * g.length / 8 →
      ((Codec.unpackBin g)[i]?).map BitVec.toNat = some
        (Codec.groupsNat g / 2 ^ (7 * g.length - 8 * (7 * g.length / 8))
          / 2 ^ (8 * (7 * g.length / 8 - 1 - i)) % 256)

/-- `40_bitpack.md` R80: any accumulator of 14 bits or more, and the unbounded one, with or without the reductions, gives
the same outputs for every input, body bytes from 0x80 up included. -/
def Obligations.AnyWidthFromFourteenAgrees : Prop :=
  ∀ (w : Option Nat) (reduce : Bool) (b : List Byte), (∀ k, w = some k → 14 ≤ k) →
    Codec.packAnyFrom w reduce 0 0 b = Codec.packBin b ∧
    Codec.unpackAnyFrom w reduce 0 0 b = Codec.unpackBin b

/-- The length laws of `40_bitpack.md` R81 and `30_encoding.md` R52. -/
def Obligations.BodyAndPayloadLengths : Prop :=
  ∀ b : List Byte,
    (Codec.packBin b).length = (8 * b.length + 6) / 7 ∧
    (Codec.unpackBin b).length = 7 * b.length / 8 ∧
    (Codec.packAsc b).length = b.length ∧
    (Codec.unpackAsc b).length = b.length ∧
    (Codec.packBin b).length % 8 ≠ 1

/-- `40_bitpack.md` R82: the Binary round trip. -/
def Obligations.BinaryRoundTrip : Prop :=
  ∀ b : List Byte, Codec.unpackBin (Codec.packBin b) = b

/-- `70_reset_and_hazards.md` R161: a Binary body cut to `m` groups gives the first `floor(7m/8)` bytes of the payload. -/
def Obligations.TruncatedBodyGivesAPrefix : Prop :=
  ∀ (b : List Byte) (m : Nat), m ≤ (Codec.packBin b).length →
    Codec.unpackBin ((Codec.packBin b).take m) = b.take (7 * m / 8)

/-- `40_bitpack.md` R83: the Ascii round trip clears bit 7 and is lossless exactly on 7-bit payloads. -/
def Obligations.AsciiRoundTripClearsBitSeven : Prop :=
  ∀ b : List Byte,
    (Codec.unpackAsc (Codec.packAsc b)).map BitVec.toNat = b.map (fun x => x.toNat % 128) ∧
    (Codec.unpackAsc (Codec.packAsc b) = b ↔ ∀ x ∈ b, x.toNat ≤ 0x7F)

/-- `40_bitpack.md` R85: the ranges of the body codings. -/
def Obligations.BodyBytesAreSevenBit : Prop :=
  (∀ (b : List Byte), ∀ x ∈ Codec.packBin b, x.toNat ≤ 0x7F) ∧
  (∀ (b : List Byte), ∀ x ∈ Codec.packAsc b, x.toNat ≤ 0x7F) ∧
  (∀ (g : List Byte), ∀ x ∈ Codec.unpackAsc g, x.toNat ≤ 0x7F) ∧
  (∀ x : Byte, ∃ g, x ∈ Codec.unpackBin g)

/-- `40_bitpack.md` R84: a body byte's bit 7 acts as bit 0 of the group before it, except at indices that are multiples of
8, where it has no effect. -/
def Obligations.StrayBitSevenMovesToTheGroupBefore : Prop :=
  ∀ g : List Byte, Codec.unpackBin g = Codec.unpackBin (Codec.straySettled 0 g)

/-- `41_frame_encode.md` R97: the shape of a frame in both modes. -/
def Obligations.FrameShape : Prop :=
  ∀ (v : Vid) (b : List Byte) (m : Mode),
    (Codec.encode v .binary b).length = 3 + (8 * b.length + 6) / 7 ∧
    (Codec.encode v .ascii b).length = 3 + b.length ∧
    ∃ mid, Codec.encode v m b = [0xF0, BitVec.ofNat 8 v.toNat] ++ mid ++ [0xF7] ∧ ∀ x ∈ mid, x.toNat ≤ 0x7F

/-- `42_frame_decode.md` R113: a frame of another vendor is rejected in every mode. -/
def Obligations.OtherVendorsFrameIsRejected : Prop :=
  ∀ (v₁ v₂ : Vid) (m₁ m₂ : Mode) (b : List Byte), v₁ ≠ v₂ →
    Codec.decode v₁ m₁ (Codec.encode v₂ m₂ b) = none

/-- `42_frame_decode.md` R116: the frame round trip in both modes. -/
def Obligations.FrameRoundTrip : Prop :=
  ∀ (v : Vid) (b : List Byte),
    Codec.decode v .binary (Codec.encode v .binary b) = some b ∧
    Codec.decode v .ascii (Codec.encode v .ascii b) = some (b.map fun x => BitVec.ofNat 8 (x.toNat % 128))

/-- `42_frame_decode.md` R117: an embedded terminator ends the body, whatever follows it. -/
def Obligations.EmbeddedTerminatorEndsTheBody : Prop :=
  ∀ (v : Vid) (m : Mode) (x y : List Byte), (∀ g ∈ x, g.toNat ≠ 0xF7) →
    Codec.decode v m ([0xF0, BitVec.ofNat 8 v.toNat] ++ x ++ [0xF7] ++ y) = some (Codec.unpack m x)

/-- The loopback through the machine in Binary mode (`41_frame_encode.md` R96, `42_frame_decode.md` R111, R116): what ENC
emits for a payload, fed to DEC with the same configuration, gives the payload back exactly, and the model's history of
rejections (log 4) gains nothing. The Ascii mode is `EncodedTokensAreTheFrame`, `DecodedTokensAreThePayload` and
`FrameRoundTrip`. -/
def Obligations.LoopbackReturnsThePayload : Prop :=
  ∀ (v : Vid) (b : List Byte) (s : State), s.Inv →
    s.enc.st = .idle → s.dec.st = .hdr0 → s.enc.cfg = cfgWord .binary v → s.dec.cfg = cfgWord .binary v →
    ∃ t out u, runScript (Script.encode b) s = .next t ∧ t.encOut = s.encOut ++ out ∧
      runScript (Script.decode (out.map Token.data)) t = .next u ∧
      u.decOut = s.decOut ++ b.map (fun d => ⟨false, d⟩) ++ [⟨true, 0⟩] ∧
      u.enc = t.enc ∧ u.rejects = s.rejects
end

