-- ==== Sys2Proof/Laws/Bits.lean ====
section
/-! SUPPORT. The numbers the datapath's bit operations compute (`40_bitpack.md` R79). -/

namespace Sys2Proof.Machine

theorem modPow2_toNat (r : Acc) (k : Nat) (hk : k ≤ 14) : (modPow2 r k).toNat = r.toNat % 2 ^ k := by
  have h : r.toNat % 2 ^ k < 2 ^ 14 :=
    lt_of_lt_of_le (Nat.mod_lt _ (by positivity)) (Nat.pow_le_pow_right (by norm_num) hk)
  rw [modPow2, BitVec.toNat_ofNat, Nat.mod_eq_of_lt h]

theorem and_127 (n : Nat) : n &&& 127 = n % 128 := Nat.and_two_pow_sub_one_eq_mod n 7

theorem and_255 (n : Nat) : n &&& 255 = n % 256 := Nat.and_two_pow_sub_one_eq_mod n 8

theorem mask7_toNat (b : Byte) : (mask7 b).toNat = b.toNat % 128 := by
  simp [mask7, BitVec.toNat_and, Nat.and_two_pow_sub_one_eq_mod b.toNat 7]

theorem vidByte_toNat (v : Vid) : (vidByte v).toNat = v.toNat := by
  simp only [vidByte, BitVec.toNat_setWidth]; omega

theorem cfgVid_toNat (w : Byte) : (cfgVid w).toNat = w.toNat % 128 := by simp [cfgVid]

/-- With at most six pending bits nothing is lost by an eight-bit shift (`40_bitpack.md` R71). -/
theorem shiftIn8_toNat (r : Acc) (b : Byte) (hr : r.toNat < 2 ^ 6) :
    (shiftIn8 r b).toNat = r.toNat * 256 + b.toNat := by
  have h : (r.toNat <<< 8) < 2 ^ 14 := by rw [Nat.shiftLeft_eq]; omega
  have hb : b.toNat % 2 ^ 14 = b.toNat := Nat.mod_eq_of_lt (by omega)
  simp only [shiftIn8, BitVec.toNat_or, BitVec.toNat_shiftLeft, BitVec.toNat_setWidth, Nat.mod_eq_of_lt h, hb]
  rw [← Nat.shiftLeft_add_eq_or_of_lt (by omega), Nat.shiftLeft_eq]

/-- With at most seven pending bits nothing is lost by a seven-bit shift; bit 7 of the byte is ORed in
(`40_bitpack.md` R75). -/
theorem shiftIn7_toNat (r : Acc) (g : Byte) (hr : r.toNat < 2 ^ 7) :
    (shiftIn7 r g).toNat = (r.toNat * 128) ||| g.toNat := by
  have h : (r.toNat <<< 7) < 2 ^ 14 := by rw [Nat.shiftLeft_eq]; omega
  have hg : g.toNat % 2 ^ 14 = g.toNat := Nat.mod_eq_of_lt (by omega)
  simp only [shiftIn7, BitVec.toNat_or, BitVec.toNat_shiftLeft, BitVec.toNat_setWidth, Nat.mod_eq_of_lt h, hg]
  rw [Nat.shiftLeft_eq]

/-- A 4-bit counter less a number it is not below. -/
theorem Cnt.sub_toNat (c k : Cnt) (h : k ≤ c) : (c - k).toNat = c.toNat - k.toNat :=
  BitVec.toNat_sub_of_le h

theorem topGroup_toNat (r : Acc) (c : Cnt) (h : 7 ≤ c) :
    (topGroup r c).toNat = r.toNat / 2 ^ (c.toNat - 7) % 128 := by
  have hs : (c - 7).toNat = c.toNat - 7 := Cnt.sub_toNat c 7 h
  have hm : ((0x7F : Acc)).toNat = 127 := rfl
  simp only [topGroup, BitVec.toNat_setWidth, BitVec.toNat_and, BitVec.toNat_ushiftRight, hs, hm,
    Nat.shiftRight_eq_div_pow, and_127]
  omega

theorem topByte_toNat (r : Acc) (c : Cnt) (h : 8 ≤ c) :
    (topByte r c).toNat = r.toNat / 2 ^ (c.toNat - 8) % 256 := by
  have hs : (c - 8).toNat = c.toNat - 8 := Cnt.sub_toNat c 8 h
  have hm : ((0xFF : Acc)).toNat = 255 := rfl
  simp only [topByte, BitVec.toNat_setWidth, BitVec.toNat_and, BitVec.toNat_ushiftRight, hs, hm,
    Nat.shiftRight_eq_div_pow, and_255]
  omega

theorem padGroup_toNat (r : Acc) (c : Cnt) (h : c ≤ 7) (hr : r.toNat < 2 ^ c.toNat) :
    (padGroup r c).toNat = r.toNat * 2 ^ (7 - c.toNat) := by
  have hc : c.toNat ≤ 7 := by simpa [BitVec.le_def] using h
  have hs : (7 - c).toNat = 7 - c.toNat := Cnt.sub_toNat 7 c h
  have hm : ((0x7F : Acc)).toNat = 127 := rfl
  have hlt : r.toNat * 2 ^ (7 - c.toNat) < 2 ^ 7 :=
    calc r.toNat * 2 ^ (7 - c.toNat) < 2 ^ c.toNat * 2 ^ (7 - c.toNat) :=
          Nat.mul_lt_mul_of_pos_right hr (by positivity)
      _ = 2 ^ 7 := by rw [← pow_add]; congr 1; omega
  simp only [padGroup, BitVec.toNat_setWidth, BitVec.toNat_and, BitVec.toNat_shiftLeft, hs, hm,
    Nat.shiftLeft_eq, and_127]
  omega

end Sys2Proof.Machine
end

