-- ==== Sys2Proof/Laws/State.lean ====
section
/-! SUPPORT. One lemma per field per update of the state, and what reset leaves in each field. -/

namespace Sys2Proof.Machine

/-! ### An operation of the encode half -/

@[simp] theorem State.applyEnc_enc (s : State) (f : EncRegs → EncEff) : (s.applyEnc f).enc = (f s.enc).regs := rfl
@[simp] theorem State.applyEnc_encOut (s : State) (f : EncRegs → EncEff) :
    (s.applyEnc f).encOut = s.encOut ++ (f s.enc).out := rfl
@[simp] theorem State.applyEnc_dec (s : State) (f : EncRegs → EncEff) : (s.applyEnc f).dec = s.dec := rfl
@[simp] theorem State.applyEnc_encIn (s : State) (f : EncRegs → EncEff) : (s.applyEnc f).encIn = s.encIn := rfl
@[simp] theorem State.applyEnc_decIn (s : State) (f : EncRegs → EncEff) : (s.applyEnc f).decIn = s.decIn := rfl
@[simp] theorem State.applyEnc_decOut (s : State) (f : EncRegs → EncEff) : (s.applyEnc f).decOut = s.decOut := rfl
@[simp] theorem State.applyEnc_rdata (s : State) (f : EncRegs → EncEff) : (s.applyEnc f).rdata = s.rdata := rfl
@[simp] theorem State.applyEnc_turns (s : State) (f : EncRegs → EncEff) : (s.applyEnc f).turns = s.turns := rfl
@[simp] theorem State.applyEnc_rejects (s : State) (f : EncRegs → EncEff) : (s.applyEnc f).rejects = s.rejects := rfl

/-! ### An operation of the decode half -/

@[simp] theorem State.applyDec_dec (s : State) (f : DecRegs → DecEff) : (s.applyDec f).dec = (f s.dec).regs := rfl
@[simp] theorem State.applyDec_decOut (s : State) (f : DecRegs → DecEff) :
    (s.applyDec f).decOut = s.decOut ++ (f s.dec).out := rfl
@[simp] theorem State.applyDec_rejects (s : State) (f : DecRegs → DecEff) :
    (s.applyDec f).rejects = s.rejects ++ (f s.dec).rejects := rfl
@[simp] theorem State.applyDec_enc (s : State) (f : DecRegs → DecEff) : (s.applyDec f).enc = s.enc := rfl
@[simp] theorem State.applyDec_encIn (s : State) (f : DecRegs → DecEff) : (s.applyDec f).encIn = s.encIn := rfl
@[simp] theorem State.applyDec_encOut (s : State) (f : DecRegs → DecEff) : (s.applyDec f).encOut = s.encOut := rfl
@[simp] theorem State.applyDec_decIn (s : State) (f : DecRegs → DecEff) : (s.applyDec f).decIn = s.decIn := rfl
@[simp] theorem State.applyDec_rdata (s : State) (f : DecRegs → DecEff) : (s.applyDec f).rdata = s.rdata := rfl
@[simp] theorem State.applyDec_turns (s : State) (f : DecRegs → DecEff) : (s.applyDec f).turns = s.turns := rfl

/-! ### A configuration write -/

@[simp] theorem State.writeCfg_enc (s : State) (d : Byte) : s.writeCfg d .enc = { s with enc := { s.enc with cfg := d } } :=
  rfl
@[simp] theorem State.writeCfg_dec (s : State) (d : Byte) : s.writeCfg d .dec = { s with dec := { s.dec with cfg := d } } :=
  rfl
@[simp] theorem State.readCfg_enc (s : State) : s.readCfg .enc = s.enc.cfg := rfl
@[simp] theorem State.readCfg_dec (s : State) : s.readCfg .dec = s.dec.cfg := rfl

/-- A configuration access reads back what was written to its address. -/
@[simp] theorem State.readCfg_writeCfg (s : State) (d : Byte) (a : CfgAddr) : (s.writeCfg d a).readCfg a = d := by
  cases a <;> rfl

/-! ### The latched modes -/

@[simp] theorem EncRegs.latchMode_cfg (e : EncRegs) : e.latchMode.cfg = e.cfg := rfl
@[simp] theorem EncRegs.latchMode_st (e : EncRegs) : e.latchMode.st = e.st := rfl
@[simp] theorem EncRegs.latchMode_lmode (e : EncRegs) : e.latchMode.lmode = cfgMode e.cfg := rfl
@[simp] theorem EncRegs.latchMode_r (e : EncRegs) : e.latchMode.r = e.r := rfl
@[simp] theorem EncRegs.latchMode_c (e : EncRegs) : e.latchMode.c = e.c := rfl
@[simp] theorem DecRegs.latchMode_cfg (d : DecRegs) : d.latchMode.cfg = d.cfg := rfl
@[simp] theorem DecRegs.latchMode_st (d : DecRegs) : d.latchMode.st = d.st := rfl
@[simp] theorem DecRegs.latchMode_lmode (d : DecRegs) : d.latchMode.lmode = cfgMode d.cfg := rfl
@[simp] theorem DecRegs.latchMode_r (d : DecRegs) : d.latchMode.r = d.r := rfl
@[simp] theorem DecRegs.latchMode_c (d : DecRegs) : d.latchMode.c = d.c := rfl

/-! ### The end of a message and the dropped bits -/

@[simp] theorem DecRegs.toHdr0_cfg (d : DecRegs) : d.toHdr0.cfg = d.cfg := rfl
@[simp] theorem DecRegs.toHdr0_st (d : DecRegs) : d.toHdr0.st = .hdr0 := rfl
@[simp] theorem DecRegs.toHdr0_lmode (d : DecRegs) : d.toHdr0.lmode = d.lmode := rfl
@[simp] theorem DecRegs.toHdr0_r (d : DecRegs) : d.toHdr0.r = 0 := rfl
@[simp] theorem DecRegs.toHdr0_c (d : DecRegs) : d.toHdr0.c = 0 := rfl
@[simp] theorem unpkDr_cfg (d : DecRegs) : (unpkDr d).cfg = d.cfg := rfl
@[simp] theorem unpkDr_st (d : DecRegs) : (unpkDr d).st = d.st := rfl
@[simp] theorem unpkDr_lmode (d : DecRegs) : (unpkDr d).lmode = d.lmode := rfl
@[simp] theorem unpkDr_r (d : DecRegs) : (unpkDr d).r = 0 := rfl
@[simp] theorem unpkDr_c (d : DecRegs) : (unpkDr d).c = 0 := rfl
@[simp] theorem decFinish_eq (d : DecRegs) : decFinish d = unpkDr d := rfl

/-! ### Tokens -/

@[simp] theorem Token.byte_data (d : Byte) : (Token.byte d).data = d := rfl
@[simp] theorem Token.byte_flag (d : Byte) : (Token.byte d).flag = false := rfl
@[simp] theorem Token.fLast_data : Token.fLast.data = Config.eox := rfl
@[simp] theorem Token.fLast_flag : Token.fLast.flag = true := rfl
@[simp] theorem Token.pEnd_data : Token.pEnd.data = 0 := rfl
@[simp] theorem Token.pEnd_flag : Token.pEnd.flag = true := rfl

end Sys2Proof.Machine
end

