-- ==== Sys2Proof/Laws/Ops.lean ====
section
/-! SUPPORT. What each shared operation does, said once: the datapath steps as numbers (`40_bitpack.md` R71, R72, R75), and
what no operation of a half changes (`10_state.md` R28). -/

namespace Sys2Proof.Machine

@[ext] theorem EncRegs.ext' {x y : EncRegs} (h₁ : x.cfg = y.cfg) (h₂ : x.st = y.st) (h₃ : x.lmode = y.lmode)
    (h₄ : x.r = y.r) (h₅ : x.c = y.c) : x = y := by
  cases x; cases y; simp_all

@[ext] theorem DecRegs.ext' {x y : DecRegs} (h₁ : x.cfg = y.cfg) (h₂ : x.st = y.st) (h₃ : x.lmode = y.lmode)
    (h₄ : x.r = y.r) (h₅ : x.c = y.c) : x = y := by
  cases x; cases y; simp_all

@[simp] theorem EncEff.andThen_regs (x : EncEff) (f : EncRegs → EncEff) : (x.andThen f).regs = (f x.regs).regs := rfl
@[simp] theorem EncEff.andThen_out (x : EncEff) (f : EncRegs → EncEff) : (x.andThen f).out = x.out ++ (f x.regs).out :=
  rfl

/-! ### The loop of PACK.B8 -/

theorem packLoop_stop (n : Nat) (e : EncRegs) (h : ¬ 7 ≤ e.c) : packLoop n e = { regs := e, out := [] } := by
  cases n with
  | zero => rfl
  | succ n => rw [packLoop, if_neg h]

theorem packLoop_go (n : Nat) (e : EncRegs) (h : 7 ≤ e.c) :
    packLoop (n + 1) e =
      { regs := (packLoop n { e with r := modPow2 e.r (e.c - 7).toNat, c := e.c - 7 }).regs
        out := Token.byte (topGroup e.r e.c) ::
          (packLoop n { e with r := modPow2 e.r (e.c - 7).toNat, c := e.c - 7 }).out } := by
  rw [packLoop, if_pos h]

/-- After two rounds the loop's condition is false, whatever the 4-bit counter was (`60_exceptions.md` R138). -/
theorem packLoop_two_done (e : EncRegs) : ¬ 7 ≤ (packLoop 2 e).regs.c := by
  by_cases h : 7 ≤ e.c
  · rw [packLoop_go 1 e h]
    by_cases h' : 7 ≤ e.c - 7
    · rw [packLoop_go 0 _ h']
      have : ∀ c : Cnt, 7 ≤ c → 7 ≤ c - 7 → ¬ 7 ≤ c - 7 - 7 := by decide
      simpa [packLoop] using this e.c h h'
    · rw [packLoop_stop _ _ h']; exact h'
  · rw [packLoop_stop _ _ h]; exact h

/-! ### The datapath steps as numbers -/

theorem cnt_add_eight (c : Cnt) (h : c.toNat ≤ 6) : (c + 8).toNat = c.toNat + 8 := by
  rw [BitVec.toNat_add, show ((8 : Cnt)).toNat = 8 from rfl]; omega

theorem cnt_add_seven (c : Cnt) (h : c.toNat ≤ 7) : (c + 7).toNat = c.toNat + 7 := by
  rw [BitVec.toNat_add, show ((7 : Cnt)).toNat = 7 from rfl]; omega

theorem cnt_seven_le {c : Cnt} : 7 ≤ c ↔ 7 ≤ c.toNat := by
  rw [BitVec.le_def, show ((7 : Cnt)).toNat = 7 from rfl]

theorem cnt_eight_le {c : Cnt} : 8 ≤ c ↔ 8 ≤ c.toNat := by
  rw [BitVec.le_def, show ((8 : Cnt)).toNat = 8 from rfl]

theorem cnt_pos {c : Cnt} : 0 < c ↔ 0 < c.toNat := by
  rw [BitVec.lt_def, show ((0 : Cnt)).toNat = 0 from rfl]

/-- PACK.B8 with fewer than six bits pending: one group (`40_bitpack.md` R71). -/
theorem packB8_one (b : Byte) (e : EncRegs) (hc : e.c.toNat < 6) (hr : e.r.toNat < 2 ^ e.c.toNat) :
    packB8 b e =
      { regs := { e with r := BitVec.ofNat 14 (b.toNat % 2 ^ (e.c.toNat + 1)), c := BitVec.ofNat 4 (e.c.toNat + 1) }
        out := [Token.byte (BitVec.ofNat 8 (e.r.toNat * 2 ^ (7 - e.c.toNat) + b.toNat / 2 ^ (e.c.toNat + 1)))] } := by
  obtain ⟨cfg, st, lmode, r, c⟩ := e
  simp only at hc hr
  have hr6 : r.toNat < 2 ^ 6 := lt_of_lt_of_le hr (Nat.pow_le_pow_right (by norm_num) (by omega))
  have h8 := cnt_add_eight c (by omega)
  have hge : 7 ≤ c + 8 := cnt_seven_le.2 (by omega)
  have hsub : (c + 8 - 7).toNat = c.toNat + 1 := by rw [Cnt.sub_toNat _ _ hge, h8]; rfl
  have hlt : ¬ 7 ≤ c + 8 - 7 := fun h => by have := cnt_seven_le.1 h; omega
  have hR := shiftIn8_toNat r b hr6
  have hb : b.toNat < 256 := b.isLt
  rw [packB8, packLoop_go 1 _ hge, packLoop_stop _ _ hlt]
  simp only [EncEff.mk.injEq, EncRegs.mk.injEq, true_and, List.cons.injEq, and_true]
  refine ⟨⟨?_, ?_⟩, ?_⟩
  · rw [hsub]
    apply BitVec.eq_of_toNat_eq
    rw [modPow2_toNat _ _ (by omega), hR, BitVec.toNat_ofNat]
    generalize c.toNat = k at hc
    interval_cases k <;> omega
  · apply BitVec.eq_of_toNat_eq
    rw [hsub, BitVec.toNat_ofNat]; omega
  · congr 1
    apply BitVec.eq_of_toNat_eq
    rw [topGroup_toNat _ _ hge, h8, hR, BitVec.toNat_ofNat]
    generalize c.toNat = k at hc hr
    interval_cases k <;> omega

/-- PACK.B8 with six bits pending: two groups, nothing left (`40_bitpack.md` R71). -/
theorem packB8_two (b : Byte) (e : EncRegs) (hc : e.c.toNat = 6) (hr : e.r.toNat < 2 ^ e.c.toNat) :
    packB8 b e =
      { regs := { e with r := 0, c := 0 }
        out := [Token.byte (BitVec.ofNat 8 (e.r.toNat * 2 + b.toNat / 128)),
          Token.byte (BitVec.ofNat 8 (b.toNat % 128))] } := by
  obtain ⟨cfg, st, lmode, r, c⟩ := e
  simp only at hc hr
  obtain rfl : c = 6 := BitVec.eq_of_toNat_eq hc
  have hr6 : r.toNat < 2 ^ 6 := hr
  have hR := shiftIn8_toNat r b hr6
  have hb : b.toNat < 256 := b.isLt
  have h14 : 7 ≤ (6 + 8 : Cnt) := by decide
  have h7 : 7 ≤ (6 + 8 - 7 : Cnt) := by decide
  rw [packB8, packLoop_go 1 _ h14, packLoop_go 0 _ h7]
  simp only [packLoop, EncEff.mk.injEq, EncRegs.mk.injEq, true_and, List.cons.injEq, and_true]
  have hm : (modPow2 (shiftIn8 r b) ((6 : Cnt) + 8 - 7).toNat).toNat = (r.toNat * 256 + b.toNat) % 128 := by
    rw [modPow2_toNat _ _ (by decide), hR]; rfl
  refine ⟨⟨?_, by decide⟩, ?_, ?_⟩
  · apply BitVec.eq_of_toNat_eq
    rw [modPow2_toNat _ _ (by decide)]
    show _ % 2 ^ 0 = 0
    omega
  · congr 1
    apply BitVec.eq_of_toNat_eq
    rw [topGroup_toNat _ _ h14, hR, BitVec.toNat_ofNat]
    show (r.toNat * 256 + b.toNat) / 2 ^ 7 % 128 = _
    omega
  · congr 1
    apply BitVec.eq_of_toNat_eq
    rw [topGroup_toNat _ _ h7, hm, BitVec.toNat_ofNat]
    show (r.toNat * 256 + b.toNat) % 128 / 2 ^ 0 % 128 = _
    omega

/-- PACK.FL with bits pending: one padded group (`40_bitpack.md` R72). -/
theorem packFl_pending (e : EncRegs) (h0 : 0 < e.c.toNat) (h6 : e.c.toNat ≤ 6) (hr : e.r.toNat < 2 ^ e.c.toNat) :
    packFl e = { regs := { e with r := 0, c := 0 }
                 out := [Token.byte (BitVec.ofNat 8 (e.r.toNat * 2 ^ (7 - e.c.toNat)))] } := by
  have h7 : e.c ≤ 7 := by rw [BitVec.le_def]; exact Nat.le_trans h6 (by decide)
  have h : padGroup e.r e.c = BitVec.ofNat 8 (e.r.toNat * 2 ^ (7 - e.c.toNat)) := by
    apply BitVec.eq_of_toNat_eq
    have := (padGroup e.r e.c).isLt
    rw [padGroup_toNat _ _ h7 hr] at this ⊢
    rw [BitVec.toNat_ofNat, Nat.mod_eq_of_lt this]
  rw [packFl, if_pos (cnt_pos.2 h0), h]

/-- PACK.FL with nothing pending emits nothing (`40_bitpack.md` R72). -/
theorem packFl_empty (e : EncRegs) (h : e.c = 0) : packFl e = { regs := { e with r := 0, c := 0 }, out := [] } := by
  simp [packFl, h]

/-- UNPK.G7 with nothing pending: the group is kept (`40_bitpack.md` R75). -/
theorem unpkG7_none (g : Byte) (d : DecRegs) (hc : d.c = 0) (hr : d.r = 0) :
    unpkG7 g d = .quiet { d with r := BitVec.ofNat 14 (g.toNat % 128), c := 7 } := by
  have hR := shiftIn7_toNat d.r g (by simp [hr])
  have hc7 : d.c + 7 = 7 := by rw [hc]; decide
  have hr' : modPow2 (shiftIn7 d.r g) 7 = BitVec.ofNat 14 (g.toNat % 128) := by
    apply BitVec.eq_of_toNat_eq
    rw [modPow2_toNat _ _ (by decide), hR, hr, BitVec.toNat_ofNat]
    simp only [BitVec.ofNat_eq_ofNat, BitVec.toNat_ofNat, Nat.zero_mod, Nat.zero_mul, Nat.zero_or]
    omega
  simp only [unpkG7, hc7, show ¬ (8 : Cnt) ≤ 7 by decide, if_false, show ((7 : Cnt)).toNat = 7 from rfl, hr']

/-- UNPK.G7 with bits pending: one byte, the pending bits on top ORed with the unmasked body byte (`40_bitpack.md` R75,
R84). -/
theorem unpkG7_some (g : Byte) (d : DecRegs) (h0 : 0 < d.c.toNat) (h7 : d.c.toNat ≤ 7)
    (hr : d.r.toNat < 2 ^ d.c.toNat) :
    unpkG7 g d =
      { regs := { d with r := BitVec.ofNat 14 (g.toNat % 2 ^ (d.c.toNat - 1)), c := BitVec.ofNat 4 (d.c.toNat - 1) }
        out := [Token.byte (BitVec.ofNat 8
          ((d.r.toNat * 2 ^ (8 - d.c.toNat)) ||| (g.toNat / 2 ^ (d.c.toNat - 1))))]
        rejects := [] } := by
  obtain ⟨cfg, st, lmode, r, c⟩ := d
  simp only at h0 h7 hr
  have hr7 : r.toNat < 2 ^ 7 := lt_of_lt_of_le hr (Nat.pow_le_pow_right (by norm_num) h7)
  have hcs := cnt_add_seven c h7
  have hge : 8 ≤ c + 7 := cnt_eight_le.2 (by omega)
  have hsub : (c + 7 - 8).toNat = c.toNat - 1 := by
    rw [Cnt.sub_toNat _ _ hge, hcs, show ((8 : Cnt)).toNat = 8 from rfl]; omega
  have hR := shiftIn7_toNat r g hr7
  have hg : g.toNat < 256 := g.isLt
  simp only [unpkG7, hge, if_true, DecEff.mk.injEq, DecRegs.mk.injEq, true_and, List.cons.injEq, and_true]
  refine ⟨⟨?_, ?_⟩, ?_⟩
  · rw [hsub]
    apply BitVec.eq_of_toNat_eq
    have hk : c.toNat - 1 ≤ 7 := by omega
    rw [modPow2_toNat _ _ (by omega), hR, BitVec.toNat_ofNat, Nat.or_mod_two_pow,
      show r.toNat * 128 % 2 ^ (c.toNat - 1) = 0 from
        Nat.mod_eq_zero_of_dvd (Dvd.dvd.mul_left (pow_dvd_pow 2 hk) _), Nat.zero_or]
    exact (Nat.mod_eq_of_lt (lt_of_le_of_lt (Nat.mod_le _ _) (by omega))).symm
  · apply BitVec.eq_of_toNat_eq
    rw [hsub, BitVec.toNat_ofNat]; omega
  · congr 1
    apply BitVec.eq_of_toNat_eq
    rw [topByte_toNat _ _ hge, hcs, hR, BitVec.toNat_ofNat, show c.toNat + 7 - 8 = c.toNat - 1 by omega,
      ← Nat.shiftRight_eq_div_pow, Nat.shiftRight_or_distrib, Nat.shiftRight_eq_div_pow, Nat.shiftRight_eq_div_pow]
    congr 2
    rw [show 128 = 2 ^ (8 - c.toNat) * 2 ^ (c.toNat - 1) by 
        rw [← pow_add, show 8 - c.toNat + (c.toNat - 1) = 7 by omega]; norm_num,
      ← Nat.mul_assoc, Nat.mul_div_cancel _ (by positivity)]

/-! ### What an operation of a half leaves as it is -/

@[simp] theorem packLoop_cfg (n : Nat) (e : EncRegs) : (packLoop n e).regs.cfg = e.cfg := by
  induction n generalizing e with
  | zero => rfl
  | succ n ih =>
    by_cases h : 7 ≤ e.c
    · rw [packLoop_go n e h]; exact ih _
    · rw [packLoop_stop _ e h]

@[simp] theorem packLoop_st (n : Nat) (e : EncRegs) : (packLoop n e).regs.st = e.st := by
  induction n generalizing e with
  | zero => rfl
  | succ n ih =>
    by_cases h : 7 ≤ e.c
    · rw [packLoop_go n e h]; exact ih _
    · rw [packLoop_stop _ e h]

@[simp] theorem packLoop_lmode (n : Nat) (e : EncRegs) : (packLoop n e).regs.lmode = e.lmode := by
  induction n generalizing e with
  | zero => rfl
  | succ n ih =>
    by_cases h : 7 ≤ e.c
    · rw [packLoop_go n e h]; exact ih _
    · rw [packLoop_stop _ e h]

@[simp] theorem encAbsorb_cfg (b : Byte) (e : EncRegs) : (encAbsorb b e).regs.cfg = e.cfg := by
  unfold encAbsorb; split <;> simp [packB8, packA]

@[simp] theorem encAbsorb_st (b : Byte) (e : EncRegs) : (encAbsorb b e).regs.st = e.st := by
  unfold encAbsorb; split <;> simp [packB8, packA]

@[simp] theorem encAbsorb_lmode (b : Byte) (e : EncRegs) : (encAbsorb b e).regs.lmode = e.lmode := by
  unfold encAbsorb; split <;> simp [packB8, packA]

@[simp] theorem encFinish_regs (e : EncRegs) : (encFinish e).regs = { e with r := 0, c := 0 } := by
  unfold encFinish; split <;> rfl

@[simp] theorem encEnd_regs (e : EncRegs) : (encEnd e).regs = { e with r := 0, c := 0, st := .idle } := by
  simp [encEnd]

@[simp] theorem encStart_regs (e : EncRegs) : (encStart e).regs = e.latchMode := rfl

@[simp] theorem encStart_out (e : EncRegs) :
    (encStart e).out = [Token.byte Config.sox, Token.byte (vidByte (cfgVid e.cfg))] := rfl

@[simp] theorem unpkG7_st (g : Byte) (d : DecRegs) : (unpkG7 g d).regs.st = d.st := by
  simp only [unpkG7]; split <;> rfl

@[simp] theorem unpkG7_cfg (g : Byte) (d : DecRegs) : (unpkG7 g d).regs.cfg = d.cfg := by
  simp only [unpkG7]; split <;> rfl

@[simp] theorem unpkG7_lmode (g : Byte) (d : DecRegs) : (unpkG7 g d).regs.lmode = d.lmode := by
  simp only [unpkG7]; split <;> rfl

@[simp] theorem unpkG7_rejects (g : Byte) (d : DecRegs) : (unpkG7 g d).rejects = [] := by
  simp only [unpkG7]; split <;> rfl

/-- The rejection emits nothing, raises its own label and moves `DEC_ST` only (`60_exceptions.md` R131, R136). -/
theorem reject_spec (d : DecRegs) (cause : RejCause) (next : DecSt) :
    (d.reject cause next).regs = { d with st := next } ∧ (d.reject cause next).out = [] ∧
      (d.reject cause next).rejects = [cause] := ⟨rfl, rfl, rfl⟩

end Sys2Proof.Machine
end

