-- ==== Sys2Proof/Laws/Exec.lean ====
section
/-! SUPPORT. What `exec`, `fetch` and `step` can do, said once: each operation is one half's effect, a configuration
access, or reset; a step is an operation in the state its token was taken from, or a port action. -/

namespace Sys2Proof.Machine

@[simp] theorem exec_eByte (d : Byte) (s : State) : exec (.eByte d) s = .next (s.applyEnc (encByte d)) := rfl
@[simp] theorem exec_eEop (s : State) : exec .eEop s = .next (s.applyEnc encEop) := rfl
@[simp] theorem exec_dByte (g : Byte) (s : State) : exec (.dByte g) s = .next (s.applyDec (decByte g)) := rfl
@[simp] theorem exec_dEom (s : State) : exec .dEom s = .next (s.applyDec decEom) := rfl
@[simp] theorem exec_wSox (s : State) : exec .wSox s = .next (s.applyDec decSox) := rfl
@[simp] theorem exec_wBad0 (g : Byte) (s : State) : exec (.wBad0 g) s = .next (s.applyDec decBad0) := rfl
@[simp] theorem exec_wVid (v : Vid) (s : State) : exec (.wVid v) s = .next (s.applyDec decVid) := rfl
@[simp] theorem exec_wBadv (g : Byte) (s : State) : exec (.wBadv g) s = .next (s.applyDec decBadv) := rfl
@[simp] theorem exec_wEox (s : State) : exec .wEox s = .next (s.applyDec decEox) := rfl
@[simp] theorem exec_wGrp (g : Byte) (s : State) : exec (.wGrp g) s = .next (s.applyDec (decGrp g)) := rfl
@[simp] theorem exec_wSkip (s : State) : exec .wSkip s = .next (s.applyDec decSkip) := rfl
@[simp] theorem exec_cfgWr (a : CfgAddr) (d : Byte) (s : State) : exec (.cfgWr a d) s = .next (s.writeCfg d a) := rfl
@[simp] theorem exec_cfgRd (a : CfgAddr) (s : State) :
    exec (.cfgRd a) s = .next { s with rdata := s.rdata ++ [s.readCfg a] } := rfl
@[simp] theorem exec_reset (s : State) : exec .reset s = .next { s with enc := .reset, dec := .reset } := rfl

@[simp] theorem runScript_nil (s : State) : runScript [] s = .next s := rfl

theorem runScript_cons_next {i : Instr} {s t : State} (h : exec i s = .next t) (is : List Instr) :
    runScript (i :: is) s = runScript is t := by
  simp [runScript, h]

/-- A script in two parts: the second runs from what the first leaves. -/
theorem runScript_append_next {is : List Instr} {s t : State} (h : runScript is s = .next t) (js : List Instr) :
    runScript (is ++ js) s = runScript js t := by
  induction is generalizing s with
  | nil =>
    have : s = t := by simpa using h
    simp [this]
  | cons i is ih =>
    simp only [List.cons_append, runScript] at h ⊢
    cases hx : exec i s with
    | next u => simp only [hx] at h ⊢; exact ih h
    | fault r => exact nomatch r
    | refused r => simp [hx] at h

@[simp] theorem runSteps_zero (s : State) : runSteps 0 s = .next s := rfl

theorem runSteps_succ_next {s t : State} (h : step s = .next t) (n : Nat) : runSteps (n + 1) s = runSteps n t := by
  simp [runSteps, h]

theorem step_run {s t : State} {i : Instr} (h : fetch s = .run i t) : step s = exec i t := by simp [step, h]

theorem step_noOp {s t : State} (h : fetch s = .noOp t) : step s = .next t := by simp [step, h]

/-- Taking an operation from the ports changes no register, no history and nothing returned on `cfg`; what runs is never
a wire symbol by itself. -/
theorem fetch_run_regs {s t : State} {i : Instr} (h : fetch s = .run i t) :
    t.enc = s.enc ∧ t.dec = s.dec ∧ t.encOut = s.encOut ∧ t.decOut = s.decOut ∧ t.rdata = s.rdata ∧
      t.rejects = s.rejects ∧ i.isLine = true := by
  have hE : ∀ w : InToken, (decodeEnc w).isLine = true := fun w => by unfold decodeEnc; split <;> rfl
  have hD : ∀ w : InToken, (decodeDec w).isLine = true := fun w => by unfold decodeDec; split <;> rfl
  have hC : ∀ w : Access, (decodeCfg w).isLine = true := fun w => by simp only [decodeCfg]; split <;> rfl
  have fE : ∀ {u : State}, fetchEnc u = .run i t → t.enc = u.enc ∧ t.dec = u.dec ∧ t.encOut = u.encOut ∧
      t.decOut = u.decOut ∧ t.rdata = u.rdata ∧ t.rejects = u.rejects ∧ i.isLine = true := by
    intro u hu
    unfold fetchEnc at hu
    split at hu
    · cases hu
    · cases hu; exact ⟨rfl, rfl, rfl, rfl, rfl, rfl, hE _⟩
  have fD : ∀ {u : State}, fetchDec u = .run i t → t.enc = u.enc ∧ t.dec = u.dec ∧ t.encOut = u.encOut ∧
      t.decOut = u.decOut ∧ t.rdata = u.rdata ∧ t.rejects = u.rejects ∧ i.isLine = true := by
    intro u hu
    unfold fetchDec at hu
    split at hu
    · cases hu
    · cases hu; exact ⟨rfl, rfl, rfl, rfl, rfl, rfl, hD _⟩
  unfold fetch at h
  split at h
  · rename_i x ts _
    cases x with
    | enc => exact fE (u := { s with turns := ts }) h
    | dec => exact fD (u := { s with turns := ts }) h
    | cfg w => cases h; exact ⟨rfl, rfl, rfl, rfl, rfl, rfl, hC _⟩
    | rst => cases h; exact ⟨rfl, rfl, rfl, rfl, rfl, rfl, rfl⟩
    | putEnc w => cases h
    | putDec w => cases h
    | getEnc => cases h
    | getDec => cases h
  · split at h
    · exact fE h
    · exact fD h

/-- Where no operation runs, no register changes. -/
theorem fetch_noOp_regs {s t : State} (h : fetch s = .noOp t) :
    t.enc = s.enc ∧ t.dec = s.dec ∧ t.rdata = s.rdata ∧ t.rejects = s.rejects := by
  have fE : ∀ {u : State}, fetchEnc u = .noOp t → t = u := by
    intro u hu
    unfold fetchEnc at hu
    split at hu
    · cases hu; rfl
    · cases hu
  have fD : ∀ {u : State}, fetchDec u = .noOp t → t = u := by
    intro u hu
    unfold fetchDec at hu
    split at hu
    · cases hu; rfl
    · cases hu
  unfold fetch at h
  split at h
  · rename_i x ts _
    cases x with
    | enc => cases fE (u := { s with turns := ts }) h; exact ⟨rfl, rfl, rfl, rfl⟩
    | dec => cases fD (u := { s with turns := ts }) h; exact ⟨rfl, rfl, rfl, rfl⟩
    | cfg w => cases h
    | rst => cases h
    | putEnc w => cases h; exact ⟨rfl, rfl, rfl, rfl⟩
    | putDec w => cases h; exact ⟨rfl, rfl, rfl, rfl⟩
    | getEnc => cases h; exact ⟨rfl, rfl, rfl, rfl⟩
    | getDec => cases h; exact ⟨rfl, rfl, rfl, rfl⟩
  · split at h
    · cases fE h; exact ⟨rfl, rfl, rfl, rfl⟩
    · cases fD h; exact ⟨rfl, rfl, rfl, rfl⟩

end Sys2Proof.Machine
end

