-- ==== Sys2Proof/Laws/PerInstr.lean ====
section
/-! SUPPORT. Statements about every operation as syntax, one lemma per constructor. -/

namespace Sys2Proof.Laws.EncodeMatchesRow

/-- The columns "mask" and "match" of the operation's row in `spec/opcode_table.json`. -/
def row : Instr → Nat × Nat
  | .eByte _ => (0x100, 0x0)
  | .eEop => (0x100, 0x100)
  | .dByte _ => (0x100, 0x0)
  | .dEom => (0x100, 0x100)
  | .wSox => (0xFF, 0xF0)
  | .wBad0 _ => (0x0, 0x0)
  | .wVid _ => (0x80, 0x0)
  | .wBadv _ => (0x0, 0x0)
  | .wEox => (0xFF, 0xF7)
  | .wGrp _ => (0x0, 0x0)
  | .wSkip => (0x0, 0x0)
  | .cfgWr _ _ => (0x200, 0x200)
  | .cfgRd _ => (0x200, 0x0)
  | .reset => (0x1, 0x1)

/-- The encoding fits the format's width and matches the operation's row. -/
def Statement (i : Instr) : Prop :=
  encode i < 2 ^ i.format.width ∧ encode i &&& (row i).1 = (row i).2

/-- One bit of a number, as the table's one-bit masks pick it. -/
theorem and_bit (n k : Nat) : n &&& 2 ^ k = n / 2 ^ k % 2 * 2 ^ k := by
  rw [Nat.and_two_pow, Nat.testBit_eq_decide_div_mod_eq]
  rcases Nat.mod_two_eq_zero_or_one (n / 2 ^ k) with h | h <;> simp [h]

theorem below_and_bit {n k : Nat} (h : n < 2 ^ k) : n &&& 2 ^ k = 0 := by
  rw [and_bit, Nat.div_eq_of_lt h]; simp

theorem eByte (d : Byte) : Statement (.eByte d) :=
  ⟨lt_of_lt_of_le d.isLt (show 2 ^ 8 ≤ 2 ^ 9 by decide), below_and_bit (k := 8) d.isLt⟩

theorem eEop : Statement .eEop := by unfold Statement; decide

theorem dByte (g : Byte) : Statement (.dByte g) :=
  ⟨lt_of_lt_of_le g.isLt (show 2 ^ 8 ≤ 2 ^ 9 by decide), below_and_bit (k := 8) g.isLt⟩

theorem dEom : Statement .dEom := by unfold Statement; decide

theorem wSox : Statement .wSox := by unfold Statement; decide

theorem wBad0 (g : Byte) : Statement (.wBad0 g) := ⟨g.isLt, Nat.and_zero _⟩

theorem wVid (v : Vid) : Statement (.wVid v) :=
  ⟨lt_of_lt_of_le v.isLt (show 2 ^ 7 ≤ 2 ^ 8 by decide), below_and_bit (k := 7) v.isLt⟩

theorem wBadv (g : Byte) : Statement (.wBadv g) := ⟨g.isLt, Nat.and_zero _⟩

theorem wEox : Statement .wEox := by unfold Statement; decide

theorem wGrp (g : Byte) : Statement (.wGrp g) := ⟨g.isLt, Nat.and_zero _⟩

theorem wSkip : Statement .wSkip := by unfold Statement; decide

theorem cfgWr (a : CfgAddr) (d : Byte) : Statement (.cfgWr a d) := by
  have hd := d.isLt
  have ha : a.bit ≤ 1 := by cases a <;> decide
  refine ⟨?_, ?_⟩
  · simp only [encode, Instr.format, Format.width]; omega
  · show (0x200 + a.bit * 0x100 + d.toNat) &&& 2 ^ 9 = 0x200
    rw [and_bit]; omega

theorem cfgRd (a : CfgAddr) : Statement (.cfgRd a) := by cases a <;> (unfold Statement; decide)

theorem reset : Statement .reset := by unfold Statement; decide

end Sys2Proof.Laws.EncodeMatchesRow
end

