-- ==== Sys2Proof/Tests/Slice0.lean ====
section
/-! SUPPORT. Tests: the smoke tests of well-formedness, one written-out word per operation, small one-step tests whose
expected results are the spec's worked examples and vectors (`95_test_vectors.md`), and for every statement with
hypotheses a concrete state and operands that meet them. -/

namespace Sys2Proof.Tests

open Sys2Proof.Machine

/-- What a next state holds; nothing where there is none. -/
def after {α : Type} (o : Host.Outcome State Fault Refusal) (f : State → α) : Option α :=
  match o with
  | .next t => some (f t)
  | .fault _ => none
  | .refused _ => none

/-- The reset state with the encode half as given. -/
def encAt (cfg : Byte) (st : EncSt) (m : Mode) (r : Acc) (c : Cnt) : State :=
  { State.reset with enc := { cfg := cfg, st := st, lmode := m, r := r, c := c } }

/-- The reset state with the decode half as given. -/
def decAt (cfg : Byte) (st : DecSt) (m : Mode) (r : Acc) (c : Cnt) : State :=
  { State.reset with dec := { cfg := cfg, st := st, lmode := m, r := r, c := c } }

/-- The registers a test looks at: the encode half and what it emitted. -/
def encView (s : State) : EncSt × Mode × Acc × Cnt × List Token :=
  (s.enc.st, s.enc.lmode, s.enc.r, s.enc.c, s.encOut)

/-- The registers a test looks at: the decode half and what it emitted. -/
def decView (s : State) : DecSt × Mode × Acc × Cnt × List Token :=
  (s.dec.st, s.dec.lmode, s.dec.r, s.dec.c, s.decOut)

/-! ### Well-formedness: an ill-formed term for each check -/

theorem test_wf_bad0_refuses_start_byte : Instr.wf (.wBad0 0xF0) = false := by decide
theorem test_wf_bad0_takes_other_byte : Instr.wf (.wBad0 0xF1) = true := by decide
theorem test_wf_grp_refuses_terminator : Instr.wf (.wGrp 0xF7) = false := by decide
theorem test_wf_grp_takes_start_byte : Instr.wf (.wGrp 0xF0) = true := by decide
theorem test_selected_vid_needs_match : Instr.selectedAt .hdr1 0x7D (.wVid 0x7C) = false := by decide
theorem test_selected_badv_needs_mismatch : Instr.selectedAt .hdr1 0x7D (.wBadv 0x7D) = false := by decide
theorem test_selected_sox_needs_hdr0 : Instr.selectedAt .body 0x7D .wSox = false := by decide
theorem test_line_refuses_wire_symbol : Instr.isLine .wSkip = false := by decide

/-! ### Decoding: words written out from `30_encoding.md` R54, R56, R60 -/

theorem test_decode_eByte : decodeEnc 0b000111111 = .eByte 0x3F := by decide
theorem test_decode_eEop_ignores_data : decodeEnc 0b110101011 = .eEop := by decide
theorem test_decode_dByte : decodeDec 0b011110000 = .dByte 0xF0 := by decide
theorem test_decode_dEom : decodeDec 0b100000000 = .dEom := by decide
theorem test_decode_wSox : decodeWire .hdr0 0x7D 0b11110000 = .wSox := by decide
theorem test_decode_wBad0 : decodeWire .hdr0 0x7D 0b10010000 = .wBad0 0x90 := by decide
theorem test_decode_wVid : decodeWire .hdr1 0x7D 0b01111101 = .wVid 0x7D := by decide
theorem test_decode_wBadv_bit7 : decodeWire .hdr1 0x7D 0b11111101 = .wBadv 0xFD := by decide
theorem test_decode_wEox : decodeWire .body 0x7D 0b11110111 = .wEox := by decide
theorem test_decode_wGrp_start_byte : decodeWire .body 0x7D 0b11110000 = .wGrp 0xF0 := by decide
theorem test_decode_wSkip : decodeWire .skip 0x7D 0b11110111 = .wSkip := by decide
theorem test_decode_cfgWr : decodeCfg 0b1111111101 = .cfgWr .dec 0xFD := by decide
theorem test_decode_cfgRd_ignores_data : decodeCfg 0b0011111111 = .cfgRd .enc := by decide
theorem test_decode_reset : decode .hdr0 0 .pin 1 = .ok .reset := by decide
theorem test_decode_pin_low_refused : decode .hdr0 0 .pin 0 = .error .resetNotAsserted := by decide
theorem test_decode_too_wide_refused : decode .hdr0 0 .te 512 = .error .tooWide := by decide

/-! ### The words the host places (log 6, log 7) -/

theorem test_table_word_eByte : decodeTableWord 16 0x03F = some (.eByte 0x3F) := by decide
theorem test_table_word_eEop : decodeTableWord 16 0x100 = some .eEop := by decide
theorem test_table_word_cfgWr : decodeTableWord 16 0x3FD = some (.cfgWr .dec 0xFD) := by decide
theorem test_table_word_cfgRd : decodeTableWord 10 0x100 = some (.cfgRd .dec) := by decide
theorem test_table_word_wSox : decodeTableWord 8 0xF0 = some .wSox := by decide
theorem test_table_word_wEox : decodeTableWord 8 0xF7 = some .wEox := by decide
theorem test_table_word_wVid : decodeTableWord 8 0x42 = some (.wVid 0x42) := by decide
theorem test_table_word_wBad0 : decodeTableWord 8 0x90 = some (.wBad0 0x90) := by decide
theorem test_table_word_reset : decodeTableWord 8 1 = some .reset := by decide

theorem test_placed_vid_accepts :
    after (step (State.reset.withFetchWord 8 0x42)) (fun t => (t.dec.st, t.decIn, t.turns)) = some (.body, [], []) := by
  decide
theorem test_placed_token_runs :
    after (step (State.reset.withFetchWord 16 0x0AB)) encView =
      some (.body, .binary, 1, 1, [⟨false, 0xF0⟩, ⟨false, 0x7D⟩, ⟨false, 0x55⟩]) := by decide
theorem test_waiting_leaves_reset : after (step State.reset) id = some State.reset := by decide

/-! ### One step each, from `95_test_vectors.md` sections 5 and 5.1 and the rules' examples -/

/-- P1 encode, step 2. -/
theorem test_eByte_one_group :
    after (exec (.eByte 0xFF) (encAt 0x7D .body .binary 0 1)) encView =
      some (.body, .binary, 3, 2, [⟨false, 0x3F⟩]) := by decide
/-- P4, step 7: the double emission. -/
theorem test_eByte_two_groups :
    after (exec (.eByte 0xFF) (encAt 0x7D .body .binary 0x3F 6)) encView =
      some (.body, .binary, 0, 0, [⟨false, 0x7F⟩, ⟨false, 0x7F⟩]) := by decide
/-- P4, step 12: an empty frame loads the mode. -/
theorem test_eEop_empty_frame :
    after (exec .eEop (encAt 0x81 .idle .binary 0 0)) encView =
      some (.idle, .ascii, 0, 0, [⟨false, 0xF0⟩, ⟨false, 0x01⟩, ⟨true, 0xF7⟩]) := by decide
/-- P5 encode, step 5: the padded group. -/
theorem test_eEop_padded_group :
    after (exec .eEop (encAt 0x7D .body .binary 1 1)) encView =
      some (.idle, .binary, 0, 0, [⟨false, 0x40⟩, ⟨true, 0xF7⟩]) := by decide
/-- P1 decode, step 5. -/
theorem test_dByte_group :
    after (exec (.dByte 0x62) (decAt 0x7D .body .binary 0x3F 6)) decView =
      some (.body, .binary, 2, 5, [⟨false, 0xFF⟩]) := by decide
/-- UB17: bit 7 lands on bit 0 of the group before. -/
theorem test_dByte_stray_bit_seven :
    after (exec (.dByte 0x80) (decAt 0x7D .body .binary 0 7)) decView =
      some (.body, .binary, 0, 6, [⟨false, 0x02⟩]) := by decide
/-- P5 decode, step 10: header only. -/
theorem test_dEom_empty_payload :
    after (exec .dEom (decAt 0x7D .body .binary 0 0)) decView = some (.hdr0, .binary, 0, 0, [⟨true, 0⟩]) := by decide
/-- P3, step 26: an empty message. -/
theorem test_dEom_short_message :
    after (exec .dEom (decAt 0x7D .hdr0 .ascii 0 0)) (fun t => (t.dec.st, t.dec.lmode, t.decOut, t.rejects)) =
      some (.hdr0, .ascii, [], [.short]) := by decide
theorem test_wSox : after (exec .wSox State.reset) decView = some (.hdr1, .binary, 0, 0, []) := by decide
theorem test_wBad0 :
    after (exec (.wBad0 0x90) State.reset) (fun t => (t.dec.st, t.decOut, t.rejects)) = some (.skip, [], [.start]) := by
  decide
/-- P3, step 18: the write before index 1 is seen. -/
theorem test_wVid_latches_mode :
    after (exec (.wVid 0x7D) (decAt 0xFD .hdr1 .binary 0 0)) decView = some (.body, .ascii, 0, 0, []) := by decide
theorem test_wBadv :
    after (exec (.wBadv 0x7C) (decAt 0x7D .hdr1 .binary 0 0)) (fun t => (t.dec.st, t.decOut, t.rejects)) =
      some (.skip, [], [.vendor]) := by decide
/-- P1 decode, step 7. -/
theorem test_wEox :
    after (exec .wEox (decAt 0x7D .body .binary 0 4)) decView = some (.skip, .binary, 0, 0, [⟨true, 0⟩]) := by decide
/-- P3, step 21. -/
theorem test_wGrp_ascii :
    after (exec (.wGrp 0xE9) (decAt 0x7D .body .ascii 0 0)) decView = some (.body, .ascii, 0, 0, [⟨false, 0x69⟩]) := by
  decide
theorem test_wSkip : after (exec .wSkip (decAt 0x7D .skip .ascii 0 0)) id = some (decAt 0x7D .skip .ascii 0 0) := by
  decide
theorem test_cfgWr :
    after (exec (.cfgWr .enc 0xFD) State.reset) (fun t => (t.enc.cfg, t.dec.cfg, t.enc.lmode)) =
      some (0xFD, 0x7D, .binary) := by decide
theorem test_cfgRd : after (exec (.cfgRd .dec) State.reset) (fun t => t.rdata) = some [0x7D] := by decide
/-- `95_test_vectors.md` 5.1, the RESET row. -/
theorem test_reset :
    after (exec .reset { encAt 0x81 .body .binary 0x2A 6 with
        dec := { cfg := 0xFD, st := .body, lmode := .binary, r := 0x15, c := 5 } }) id = some State.reset := by decide

/-! ### The whole-sequence functions, from `95_test_vectors.md` sections 2 and 4 -/

theorem test_packBin_PB9 : Codec.packBin [0x12, 0x34, 0x56, 0x78] = [0x09, 0x0D, 0x0A, 0x67, 0x40] := by decide
theorem test_unpackBin_UB23 : Codec.unpackBin [0x12, 0x34, 0x80, 0x00] = [0x24, 0xD4, 0x00] := by decide
theorem test_encode_EN1 :
    Codec.encode 0x7D .binary [0x00, 0xFF, 0x10] = [0xF0, 0x7D, 0x00, 0x3F, 0x62, 0x00, 0xF7] := by decide
theorem test_decode_DE12 :
    Codec.decode 0x7D .binary [0xF0, 0x7D, 0x00, 0x3F, 0x62, 0x00] = some [0x00, 0xFF, 0x10] := by decide
theorem test_decode_DE33 : Codec.decode 0x7D .binary [0xF0, 0xF7, 0x7D, 0xF7] = none := by decide

/-! ### Witnesses: for every statement with hypotheses, concrete values that meet them, at the edges of each clause -/

theorem witness_DecodeOfEncodeIsTheInstruction :
    Instr.wf (.wBad0 0xF1) = true ∧ Instr.selectedAt .hdr0 0 (.wBad0 0xF1) = true ∧
    Instr.wf (.wVid 0x7F) = true ∧ Instr.selectedAt .hdr1 0x7F (.wVid 0x7F) = true ∧
    Instr.wf (.wBadv 0x80) = true ∧ Instr.selectedAt .hdr1 0 (.wBadv 0x80) = true ∧
    Instr.wf (.wGrp 0xF6) = true ∧ Instr.selectedAt .body 0 (.wGrp 0xF6) = true ∧
    Instr.wf .wSkip = true ∧ Instr.selectedAt .skip 0 .wSkip = true := by decide

theorem witness_StepRunsTheDecodedInstruction :
    ({ State.reset with turns := [.enc], encIn := [0x0FF] }.turns = .enc :: [] ∧
      { State.reset with turns := [.enc], encIn := [0x0FF] }.encIn = 0x0FF :: []) ∧
    ({ State.reset with turns := [.dec], decIn := [0x1FF] }.turns = .dec :: [] ∧
      { State.reset with turns := [.dec], decIn := [0x1FF] }.decIn = 0x1FF :: []) ∧
    { State.reset with turns := [.cfg 0x3FF] }.turns = .cfg 0x3FF :: [] ∧
    { State.reset with turns := [.rst] }.turns = .rst :: [] := by decide

theorem witness_StepWithNothingScheduled :
    ({ State.reset with encIn := [0] }.turns = [] ∧ { State.reset with encIn := [0] }.encIn = 0 :: []) ∧
    ({ State.reset with decIn := [0] }.turns = [] ∧ { State.reset with decIn := [0] }.encIn = [] ∧
      { State.reset with decIn := [0] }.decIn = 0 :: []) ∧
    (State.reset.turns = [] ∧ State.reset.encIn = [] ∧ State.reset.decIn = []) := by decide

theorem witness_HostPortActions :
    { State.reset with turns := [.putEnc 1] }.turns = .putEnc 1 :: [] ∧
    { State.reset with turns := [.putDec 1] }.turns = .putDec 1 :: [] ∧
    { State.reset with turns := [.getEnc] }.turns = .getEnc :: [] ∧
    { State.reset with turns := [.getDec] }.turns = .getDec :: [] ∧
    ({ State.reset with turns := [.enc] }.turns = .enc :: [] ∧ { State.reset with turns := [.enc] }.encIn = []) ∧
    ({ State.reset with turns := [.dec] }.turns = .dec :: [] ∧ { State.reset with turns := [.dec] }.decIn = []) := by
  decide

theorem witness_PlacedScriptRunsLineByLine :
    (∀ i ∈ [Instr.eByte 0xFF, .cfgRd .enc, .dByte 0xF0, .reset], i.isLine = true) ∧
    State.reset.turns = [] ∧ State.reset.encIn = [] ∧ State.reset.decIn = [] := by decide

theorem witness_WaitingTokensAreTaken : { State.reset with encIn := [0x001], decIn := [0x0F0, 0x100] }.turns = [] := by
  decide

theorem witness_FirstPayloadByteStartsTheFrame :
    ((encAt 0x7F .idle .ascii 0 0).enc.Inv ∧ (encAt 0x7F .idle .ascii 0 0).enc.st = .idle ∧
      (encAt 0x7F .idle .ascii 0 0).enc.cfg.toNat < 128) ∧
    ((encAt 0x80 .idle .binary 0 0).enc.Inv ∧ (encAt 0x80 .idle .binary 0 0).enc.st = .idle ∧
      128 ≤ (encAt 0x80 .idle .binary 0 0).enc.cfg.toNat) := by decide

theorem witness_BinaryBytePacksOneOrTwoGroups :
    ((encAt 0x7D .body .binary 0 0).enc.Inv ∧ (encAt 0x7D .body .binary 0 0).enc.st = .body ∧
      (encAt 0x7D .body .binary 0 0).enc.lmode = .binary ∧ (encAt 0x7D .body .binary 0 0).enc.c.toNat < 6) ∧
    ((encAt 0x7D .body .binary 31 5).enc.Inv ∧ (encAt 0x7D .body .binary 31 5).enc.c.toNat < 6) ∧
    ((encAt 0x7D .body .binary 63 6).enc.Inv ∧ (encAt 0x7D .body .binary 63 6).enc.st = .body ∧
      (encAt 0x7D .body .binary 63 6).enc.lmode = .binary ∧ (encAt 0x7D .body .binary 63 6).enc.c.toNat = 6) := by
  decide

theorem witness_AsciiBytePassesSevenBits :
    (encAt 0xFD .body .ascii 0 0).enc.st = .body ∧ (encAt 0xFD .body .ascii 0 0).enc.lmode = .ascii := by decide

theorem witness_EndOfPayloadClosesTheFrame :
    ((encAt 0x7F .idle .ascii 0 0).enc.Inv ∧ (encAt 0x7F .idle .ascii 0 0).enc.st = .idle ∧
      (encAt 0x7F .idle .ascii 0 0).enc.cfg.toNat < 128) ∧
    ((encAt 0x80 .idle .binary 0 0).enc.Inv ∧ 128 ≤ (encAt 0x80 .idle .binary 0 0).enc.cfg.toNat) ∧
    ((encAt 0x7D .body .ascii 0 0).enc.Inv ∧ (encAt 0x7D .body .ascii 0 0).enc.st = .body ∧
      (encAt 0x7D .body .ascii 0 0).enc.c.toNat = 0) ∧
    ((encAt 0x7D .body .binary 1 1).enc.Inv ∧ 0 < (encAt 0x7D .body .binary 1 1).enc.c.toNat) ∧
    ((encAt 0x7D .body .binary 63 6).enc.Inv ∧ 0 < (encAt 0x7D .body .binary 63 6).enc.c.toNat) := by decide

theorem witness_EncoderTokensPerStep : (encAt 0x7D .body .binary 63 6).enc.Inv := by decide

theorem witness_EncoderLeavesTheRest :
    ((∃ d, Instr.eByte 0xFF = .eByte d) ∨ Instr.eByte 0xFF = .eEop) ∧
    ((∃ d, Instr.eEop = .eByte d) ∨ Instr.eEop = .eEop) ∧ (encAt 0x7D .body .binary 1 1).enc.st = .body :=
  ⟨.inl ⟨_, rfl⟩, .inr rfl, rfl⟩

theorem witness_EncodedTokensAreTheFrame :
    ((encAt 0x7D .idle .ascii 0 0).enc.st = .idle ∧ (encAt 0x7D .idle .ascii 0 0).enc.r = 0 ∧
      (encAt 0x7D .idle .ascii 0 0).enc.c = 0 ∧ (encAt 0x7D .idle .ascii 0 0).enc.cfg = cfgWord .binary 0x7D) ∧
    (encAt 0xFF .idle .binary 0 0).enc.cfg = cfgWord .ascii 0x7F := by decide

theorem witness_EveryPayloadGivesOneFrame :
    State.reset.enc.st = .idle ∧ State.reset.enc.r = 0 ∧ State.reset.enc.c = 0 ∧
      State.reset.enc.cfg = cfgWord .binary 0x7D := by decide

theorem witness_StartByteOpensTheMessage : State.reset.dec.st = .hdr0 := by decide

theorem witness_OtherFirstByteRejects :
    State.reset.dec.st = .hdr0 ∧ (0xEF : Byte).toNat ≠ 0xF0 ∧ (0xF1 : Byte).toNat ≠ 0xF0 := by decide

theorem witness_ConfiguredVendorAccepts :
    ((decAt 0x00 .hdr1 .ascii 0 0).dec.st = .hdr1 ∧ (decAt 0x00 .hdr1 .ascii 0 0).dec.cfg.toNat % 128 = (0 : Vid).toNat) ∧
    ((decAt 0xFF .hdr1 .binary 0 0).dec.st = .hdr1 ∧
      (decAt 0xFF .hdr1 .binary 0 0).dec.cfg.toNat % 128 = (0x7F : Vid).toNat) := by decide

theorem witness_OtherVendorRejects :
    (decAt 0xFD .hdr1 .binary 0 0).dec.st = .hdr1 ∧
    (0xFD : Byte).toNat ≠ (decAt 0xFD .hdr1 .binary 0 0).dec.cfg.toNat % 128 ∧
    (0x7C : Byte).toNat ≠ (decAt 0xFD .hdr1 .binary 0 0).dec.cfg.toNat % 128 := by decide

theorem witness_TerminatorEndsThePayload : (decAt 0x7D .body .binary 0x7F 7).dec.st = .body := by decide

theorem witness_BinaryGroupUnpacksAtMostOneByte :
    ((decAt 0x7D .body .binary 0 0).dec.Inv ∧ (decAt 0x7D .body .binary 0 0).dec.st = .body ∧
      (decAt 0x7D .body .binary 0 0).dec.lmode = .binary ∧ (0xF6 : Byte).toNat ≠ 0xF7 ∧
      (decAt 0x7D .body .binary 0 0).dec.c.toNat = 0) ∧
    ((decAt 0x7D .body .binary 1 1).dec.Inv ∧ 0 < (decAt 0x7D .body .binary 1 1).dec.c.toNat) ∧
    ((decAt 0x7D .body .binary 127 7).dec.Inv ∧ 0 < (decAt 0x7D .body .binary 127 7).dec.c.toNat) := by decide

theorem witness_AsciiBodyByteGivesSevenBits :
    (decAt 0x7D .body .ascii 0 0).dec.st = .body ∧ (decAt 0x7D .body .ascii 0 0).dec.lmode = .ascii ∧
    (0xF8 : Byte).toNat ≠ 0xF7 := by decide

theorem witness_SkippedByteChangesNothing : (decAt 0x7D .skip .binary 0 0).dec.st = .skip := by decide

theorem witness_EndOfMessageReturnsToStart :
    (decAt 0x7D .hdr0 .binary 0 0).dec.st = .hdr0 ∧ (decAt 0x7D .hdr1 .binary 0 0).dec.st = .hdr1 ∧
    (decAt 0x7D .body .binary 127 7).dec.st = .body ∧ (decAt 0x7D .skip .binary 0 0).dec.st = .skip := by decide

theorem witness_DecoderTokensPerStep : (decAt 0x7D .body .binary 0 0).dec.Inv := by decide

theorem witness_DecoderLeavesTheRest :
    ((∃ g, Instr.dByte 0xF7 = .dByte g) ∨ Instr.dByte 0xF7 = .dEom ∨ (Instr.dByte 0xF7).format = .w) ∧
    (Instr.wGrp 0x7F).format = .w ∧ (∀ v, Instr.wGrp 0x7F ≠ .wVid v) ∧ (decAt 0x7D .body .binary 0 0).dec.st ≠ .hdr1 :=
  ⟨.inl ⟨_, rfl⟩, rfl, (fun _ h => by cases h), by decide⟩

theorem witness_DecodedTokensAreThePayload :
    ((decAt 0x7D .hdr0 .ascii 0 0).dec.st = .hdr0 ∧ (decAt 0x7D .hdr0 .ascii 0 0).dec.r = 0 ∧
      (decAt 0x7D .hdr0 .ascii 0 0).dec.c = 0 ∧ (decAt 0x7D .hdr0 .ascii 0 0).dec.cfg = cfgWord .binary 0x7D) ∧
    (decAt 0x80 .hdr0 .binary 0 0).dec.cfg = cfgWord .ascii 0 := by decide

theorem witness_EveryMessageGivesAtMostOnePayload :
    State.reset.dec.st = .hdr0 ∧ State.reset.dec.r = 0 ∧ State.reset.dec.c = 0 ∧
      State.reset.dec.cfg = cfgWord .binary 0x7D := by decide

theorem witness_ReadReturnsTheLastWrite :
    ∀ i ∈ [Instr.eByte 0xFF, .cfgWr .dec 0xFF, .cfgRd .dec], i ≠ .reset ∧ ∀ d', i ≠ .cfgWr .enc d' := by
  intro i hi
  simp only [List.mem_cons, List.not_mem_nil, or_false] at hi
  rcases hi with rfl | rfl | rfl <;> exact ⟨by decide, (fun _ h => by cases h)⟩

theorem witness_ConfigurationIsSampledOnce :
    (((∃ d, Instr.eEop = .eByte d) ∨ Instr.eEop = .eEop) ∧ (encAt 0x7D .body .binary 1 1).enc.st = .body) ∧
    ((∃ g, Instr.dByte 0xF0 = .dByte g) ∧ State.reset.dec.st ≠ .hdr1 ∨ Instr.dByte 0xF0 = .dEom) :=
  ⟨⟨.inr rfl, rfl⟩, .inl ⟨⟨_, rfl⟩, by decide⟩⟩

theorem witness_HalvesShareNothing :
    (isEncSide (.cfgRd .enc) = true ∧ Instr.cfgRd .enc ≠ .reset ∧ (decAt 0xFD .body .binary 1 1).enc = State.reset.enc) ∧
    (isDecSide (.wGrp 0) = true ∧ Instr.wGrp 0 ≠ .reset ∧ (encAt 0xFD .body .binary 1 1).dec = State.reset.dec) := by
  decide

theorem witness_InterleavingIsInvisible :
    [Instr.eByte 1, .dByte 0xF0, .cfgRd .enc, .eEop].filter isEncSide =
      [Instr.dByte 0xF0, .eByte 1, .cfgRd .enc, .eEop].filter isEncSide ∧
    [Instr.eByte 1, .dByte 0xF0, .cfgRd .enc, .eEop].filter isDecSide =
      [Instr.dByte 0xF0, .eByte 1, .cfgRd .enc, .eEop].filter isDecSide ∧
    [Instr.eByte 1, .dByte 0xF0, .cfgRd .enc, .eEop].filter isCfgRead =
      [Instr.dByte 0xF0, .eByte 1, .cfgRd .enc, .eEop].filter isCfgRead := by decide

theorem witness_StepKeepsInvariant :
    { encAt 0x7D .body .binary 63 6 with encIn := [0x0FF] }.Inv ∧
    step { encAt 0x7D .body .binary 63 6 with encIn := [0x0FF] } =
      .next { encAt 0x7D .body .binary 0 0 with encOut := [⟨false, 0x7F⟩, ⟨false, 0x7F⟩] } :=
  ⟨by decide, rfl⟩

theorem witness_EveryRunIsSafe : (decAt 0x7D .body .binary 127 7).Inv := by decide

theorem witness_BitCountersCountModulo :
    (State.reset.enc.Inv ∧ State.reset.enc.st = .idle ∧ State.reset.enc.cfg.toNat < 128) ∧
    ((decAt 0x7D .body .binary 0 0).dec.Inv ∧ (decAt 0x7D .body .binary 0 0).dec.st = .body ∧
      (decAt 0x7D .body .binary 0 0).dec.lmode = .binary ∧ (decAt 0x7D .body .binary 0 0).dec.c = 0 ∧
      ∀ x ∈ ([0x00, 0xF6, 0xF8] : List Byte), x.toNat ≠ 0xF7) := by decide

theorem witness_InstancesAreIndependent :
    (0 : Nat) ≠ 1 ∧ ([State.reset, encAt 0x7D .body .binary 1 1] : Instances)[1]? = some (encAt 0x7D .body .binary 1 1) := by
  decide

theorem witness_PackedBodyClosedForm : 1 < (8 * ([0xFF] : List Byte).length + 6) / 7 := by decide

theorem witness_UnpackedPayloadClosedForm :
    (∀ x ∈ ([0x00, 0x7F] : List Byte), x.toNat < 128) ∧ 0 < 7 * ([0x00, 0x7F] : List Byte).length / 8 := by decide

theorem witness_TruncatedBodyGivesAPrefix : 4 ≤ (Codec.packBin [0x00, 0xFF, 0x10]).length := by decide

theorem witness_AnyWidthFromFourteenAgrees :
    (∀ k, (some 14 : Option Nat) = some k → 14 ≤ k) ∧ (∀ k, (none : Option Nat) = some k → 14 ≤ k) :=
  ⟨(fun _ h => by cases h; decide), (fun _ h => by cases h)⟩

theorem witness_OtherVendorsFrameIsRejected : (0x7D : Vid) ≠ 0x7C := by decide

theorem witness_EmbeddedTerminatorEndsTheBody : ∀ g ∈ ([0x00, 0xF6, 0xF8] : List Byte), g.toNat ≠ 0xF7 := by decide

theorem witness_LoopbackReturnsThePayload :
    State.reset.Inv ∧ State.reset.enc.st = .idle ∧ State.reset.dec.st = .hdr0 ∧
      State.reset.enc.cfg = cfgWord .binary 0x7D ∧ State.reset.dec.cfg = cfgWord .binary 0x7D := by decide

end Sys2Proof.Tests
end

/-! SUPPORT. The frame of every operation of a half, the invariant of `10_state.md` R23 along the operations and the
steps, and the proofs of the statements of `10_state.md`. -/

namespace Sys2Proof.Machine

/-! ### What an operation of the decode half can do to its registers -/

@[simp] theorem decSox_regs (d : DecRegs) : (decSox d).regs = { d with st := .hdr1 } := rfl
@[simp] theorem decBad0_regs (d : DecRegs) : (decBad0 d).regs = { d with st := .skip } := rfl
@[simp] theorem decVid_regs (d : DecRegs) : (decVid d).regs = { d.latchMode with r := 0, c := 0, st := .body } := rfl
@[simp] theorem decBadv_regs (d : DecRegs) : (decBadv d).regs = { d with st := .skip } := rfl
@[simp] theorem decEox_regs (d : DecRegs) : (decEox d).regs = { d with r := 0, c := 0, st := .skip } := rfl
@[simp] theorem decSkip_regs (d : DecRegs) : (decSkip d).regs = d := rfl

@[simp] theorem decAbsorb_cfg (g : Byte) (d : DecRegs) : (decAbsorb g d).regs.cfg = d.cfg := by
  unfold decAbsorb; split <;> simp [unpkA]

@[simp] theorem decAbsorb_st (g : Byte) (d : DecRegs) : (decAbsorb g d).regs.st = d.st := by
  unfold decAbsorb; split <;> simp [unpkA]

@[simp] theorem decAbsorb_lmode (g : Byte) (d : DecRegs) : (decAbsorb g d).regs.lmode = d.lmode := by
  unfold decAbsorb; split <;> simp [unpkA]

theorem decAbsorb_binary (g : Byte) {d : DecRegs} (h : d.lmode = .binary) : decAbsorb g d = unpkG7 g d := by
  simp only [decAbsorb, h]

theorem decAbsorb_ascii (g : Byte) {d : DecRegs} (h : d.lmode = .ascii) : decAbsorb g d = unpkA g d := by
  simp only [decAbsorb, h]

@[simp] theorem unpkA_regs (g : Byte) (d : DecRegs) : (unpkA g d).regs = d := rfl

@[simp] theorem decGrp_eq (g : Byte) (d : DecRegs) : decGrp g d = decAbsorb g d := rfl

/-- D.EOM leaves HDR0 with nothing pending from every position (`42_frame_decode.md` R108, `60_exceptions.md` R137). -/
@[simp] theorem decEom_regs (d : DecRegs) : (decEom d).regs = d.toHdr0 := by
  unfold decEom; split <;> rfl

theorem decByte_hdr0 (g : Byte) {d : DecRegs} (h : d.st = .hdr0) :
    decByte g d = if g = Config.sox then decSox d else decBad0 d := by
  simp only [decByte, h]

theorem decByte_hdr1 (g : Byte) {d : DecRegs} (h : d.st = .hdr1) :
    decByte g d = if g = vidByte (cfgVid d.cfg) then decVid d else decBadv d := by
  simp only [decByte, h]

theorem decByte_body (g : Byte) {d : DecRegs} (h : d.st = .body) :
    decByte g d = if g = Config.eox then decEox d else decAbsorb g d := by
  simp only [decByte, h, decGrp_eq]

theorem decByte_skip (g : Byte) {d : DecRegs} (h : d.st = .skip) : decByte g d = decSkip d := by
  simp only [decByte, h]

@[simp] theorem decByte_cfg (g : Byte) (d : DecRegs) : (decByte g d).regs.cfg = d.cfg := by
  cases h : d.st with
  | hdr0 => rw [decByte_hdr0 g h]; split <;> simp
  | hdr1 => rw [decByte_hdr1 g h]; split <;> simp
  | body => rw [decByte_body g h]; split <;> simp
  | skip => simp [decByte_skip g h]

/-- A byte loads `DEC_LMODE` only where it takes HDR1 to BODY (`10_state.md` R18). -/
theorem decByte_lmode (g : Byte) (d : DecRegs) (hst : d.st ≠ .hdr1 ∨ (decByte g d).regs.st ≠ .body) :
    (decByte g d).regs.lmode = d.lmode := by
  cases h : d.st with
  | hdr0 => rw [decByte_hdr0 g h]; split <;> simp
  | hdr1 =>
    rw [decByte_hdr1 g h] at hst ⊢
    split at hst
    · simp [h] at hst
    · simp [*]
  | body => rw [decByte_body g h]; split <;> simp
  | skip => simp [decByte_skip g h]

/-- The effect of an operation that is a token on `dec_in` or one of the wire symbols. -/
def decEffect : Instr → Option (DecRegs → DecEff)
  | .dByte g => some (decByte g)
  | .dEom => some decEom
  | .wSox => some decSox
  | .wBad0 _ => some decBad0
  | .wVid _ => some decVid
  | .wBadv _ => some decBadv
  | .wEox => some decEox
  | .wGrp g => some (decGrp g)
  | .wSkip => some decSkip
  | .eByte _ | .eEop | .cfgWr _ _ | .cfgRd _ | .reset => none

theorem exec_of_decEffect {i : Instr} {f : DecRegs → DecEff} (h : decEffect i = some f) (s : State) :
    exec i s = .next (s.applyDec f) := by
  cases i <;> cases h <;> rfl

theorem exists_decEffect {i : Instr} (h : (∃ g, i = .dByte g) ∨ i = .dEom ∨ i.format = .w) :
    ∃ f, decEffect i = some f := by
  obtain ⟨g, rfl⟩ | rfl | hw := h
  · exact ⟨_, rfl⟩
  · exact ⟨_, rfl⟩
  · cases i <;> cases hw <;> exact ⟨_, rfl⟩

theorem decEffect_cfg {i : Instr} {f : DecRegs → DecEff} (h : decEffect i = some f) (d : DecRegs) :
    (f d).regs.cfg = d.cfg := by
  cases i <;> cases h <;> simp

/-- Only the operation that accepts a vendor id loads `DEC_LMODE` (`10_state.md` R18). -/
theorem decEffect_lmode {i : Instr} {f : DecRegs → DecEff} (h : decEffect i = some f) (hv : ∀ v, i ≠ .wVid v)
    (d : DecRegs) (hst : d.st ≠ .hdr1 ∨ (f d).regs.st ≠ .body) : (f d).regs.lmode = d.lmode := by
  cases i with
  | dByte g => cases h; exact decByte_lmode g d hst
  | wVid v => exact absurd rfl (hv v)
  | _ => cases h <;> simp

/-! ### What an operation of the encode half can do to its registers -/

theorem encAbsorb_binary (b : Byte) {e : EncRegs} (h : e.lmode = .binary) : encAbsorb b e = packB8 b e := by
  simp only [encAbsorb, h]

theorem encAbsorb_ascii (b : Byte) {e : EncRegs} (h : e.lmode = .ascii) : encAbsorb b e = packA b e := by
  simp only [encAbsorb, h]

@[simp] theorem packA_regs (b : Byte) (e : EncRegs) : (packA b e).regs = e := rfl

/-- The registers with the frame begun: the first token's start where the half is in IDLE (`41_frame_encode.md` R91). -/
def EncRegs.inFrame (e : EncRegs) : EncRegs :=
  match e.st with
  | .idle => { e.latchMode with st := .body }
  | .body => e

theorem EncRegs.inFrame_idle {e : EncRegs} (h : e.st = .idle) : e.inFrame = { e.latchMode with st := .body } := by
  simp only [EncRegs.inFrame, h]

theorem EncRegs.inFrame_body {e : EncRegs} (h : e.st = .body) : e.inFrame = e := by
  simp only [EncRegs.inFrame, h]

@[simp] theorem EncRegs.inFrame_st (e : EncRegs) : e.inFrame.st = .body := by
  cases h : e.st with
  | idle => rw [inFrame_idle h]
  | body => rw [inFrame_body h, h]

@[simp] theorem EncRegs.inFrame_cfg (e : EncRegs) : e.inFrame.cfg = e.cfg := by
  unfold inFrame; split <;> rfl

@[simp] theorem EncRegs.inFrame_r (e : EncRegs) : e.inFrame.r = e.r := by
  unfold inFrame; split <;> rfl

@[simp] theorem EncRegs.inFrame_c (e : EncRegs) : e.inFrame.c = e.c := by
  unfold inFrame; split <;> rfl

/-- E.BYTE is the body token of its byte in a frame begun (`41_frame_encode.md` R92). -/
@[simp] theorem encByte_regs (b : Byte) (e : EncRegs) : (encByte b e).regs = (encAbsorb b e.inFrame).regs := by
  cases h : e.st with
  | idle => simp only [encByte, h, EncEff.andThen_regs, encStart_regs, EncRegs.inFrame_idle h]
  | body => simp only [encByte, h, EncRegs.inFrame_body h]

/-- E.EOP leaves IDLE with nothing pending from both positions (`41_frame_encode.md` R93, R94). -/
@[simp] theorem encEop_regs (e : EncRegs) : (encEop e).regs = { e.inFrame with r := 0, c := 0, st := .idle } := by
  cases h : e.st with
  | idle => simp only [encEop, h, EncEff.andThen_regs, encStart_regs, encEnd_regs, EncRegs.inFrame_idle h]
  | body => simp only [encEop, h, encEnd_regs, EncRegs.inFrame_body h]

/-! ### The operations of one half (`10_state.md` R28) -/

/-- An operation of the encode half, or an access to its register, is a function of that half's registers: it sets
them, appends tokens to `enc_out` and may return values on `cfg`. -/
theorem exec_of_isEncSide {i : Instr} (h : isEncSide i = true) (hr : i ≠ .reset) :
    ∃ (f : EncRegs → EncEff) (rd : EncRegs → List Byte),
      ∀ s, exec i s = .next { s.applyEnc f with rdata := s.rdata ++ rd s.enc } := by
  cases i with
  | eByte d => exact ⟨encByte d, fun _ => [], fun s => by rw [List.append_nil]; rfl⟩
  | eEop => exact ⟨encEop, fun _ => [], fun s => by rw [List.append_nil]; rfl⟩
  | cfgWr a d =>
    cases a with
    | enc => exact ⟨fun e => ⟨{ e with cfg := d }, []⟩, fun _ => [], fun s => by simp [State.applyEnc]⟩
    | dec => cases h
  | cfgRd a =>
    cases a with
    | enc => exact ⟨fun e => ⟨e, []⟩, fun e => [e.cfg], fun s => by simp [State.applyEnc]⟩
    | dec => cases h
  | reset => exact absurd rfl hr
  | _ => cases h

/-- An operation of the decode half, or an access to its register, is a function of that half's registers: it sets
them, appends tokens to `dec_out` and labels to the history, and may return values on `cfg`. -/
theorem exec_of_isDecSide {i : Instr} (h : isDecSide i = true) (hr : i ≠ .reset) :
    ∃ (f : DecRegs → DecEff) (rd : DecRegs → List Byte),
      ∀ s, exec i s = .next { s.applyDec f with rdata := s.rdata ++ rd s.dec } := by
  cases hf : decEffect i with
  | some f => exact ⟨f, fun _ => [], fun s => by rw [exec_of_decEffect hf, List.append_nil]; rfl⟩
  | none =>
    cases i with
    | cfgWr a d =>
      cases a with
      | dec => exact ⟨fun r => .quiet { r with cfg := d }, fun _ => [], fun s => by simp [State.applyDec, DecEff.quiet]⟩
      | enc => cases h
    | cfgRd a =>
      cases a with
      | dec => exact ⟨.quiet, fun r => [r.cfg], fun s => by simp [State.applyDec, DecEff.quiet]⟩
      | enc => cases h
    | reset => exact absurd rfl hr
    | eByte d => cases h
    | eEop => cases h
    | _ => cases hf

theorem isEncSide_or_isDecSide (i : Instr) : isEncSide i = true ∨ isDecSide i = true := by
  cases i with
  | cfgWr a d => cases a <;> simp [isEncSide, isDecSide]
  | cfgRd a => cases a <;> simp [isEncSide, isDecSide]
  | _ => simp [isEncSide, isDecSide]

/-! ### The accumulators and counters (`40_bitpack.md` R71, R75) -/

/-- PACK.B8 adds eight bits and emits sevens (`10_state.md` R12). -/
theorem packB8_c_toNat (b : Byte) (e : EncRegs) (hc : e.c.toNat ≤ 6) (hr : e.r.toNat < 2 ^ e.c.toNat) :
    (packB8 b e).regs.c.toNat = (e.c.toNat + 1) % 7 := by
  obtain h | h := Nat.lt_or_eq_of_le hc
  · simp only [packB8_one b e h hr, BitVec.toNat_ofNat]; omega
  · simp [packB8_two b e h hr, h]

theorem packB8_r_lt (b : Byte) (e : EncRegs) (hc : e.c.toNat ≤ 6) (hr : e.r.toNat < 2 ^ e.c.toNat) :
    (packB8 b e).regs.r.toNat < 2 ^ (packB8 b e).regs.c.toNat := by
  rw [packB8_c_toNat b e hc hr]
  obtain h | h := Nat.lt_or_eq_of_le hc
  · rw [packB8_one b e h hr, Nat.mod_eq_of_lt (by omega : e.c.toNat + 1 < 7)]
    exact lt_of_le_of_lt (Nat.mod_le _ _) (Nat.mod_lt _ (by positivity))
  · simp [packB8_two b e h hr, h]

/-- A counter at 0 leaves no pending bit. -/
theorem pending_eq_zero {r : Acc} {c : Cnt} (hr : r.toNat < 2 ^ c.toNat) (hc : c.toNat = 0) : r = 0 ∧ c = 0 :=
  ⟨BitVec.eq_of_toNat_eq (by simpa [hc] using hr), BitVec.eq_of_toNat_eq hc⟩

/-- UNPK.G7 adds seven bits and emits eights (`10_state.md` R16). -/
theorem unpkG7_c_toNat (g : Byte) (d : DecRegs) (hc : d.c.toNat ≤ 7) (hr : d.r.toNat < 2 ^ d.c.toNat) :
    (unpkG7 g d).regs.c.toNat = (d.c.toNat + 7) % 8 := by
  obtain h | h := Nat.eq_zero_or_pos d.c.toNat
  · obtain ⟨hr0, hc0⟩ := pending_eq_zero hr h
    rw [unpkG7_none g d hc0 hr0, h]; rfl
  · simp only [unpkG7_some g d h hc hr, BitVec.toNat_ofNat]; omega

theorem unpkG7_r_lt (g : Byte) (d : DecRegs) (hc : d.c.toNat ≤ 7) (hr : d.r.toNat < 2 ^ d.c.toNat) :
    (unpkG7 g d).regs.r.toNat < 2 ^ (unpkG7 g d).regs.c.toNat := by
  rw [unpkG7_c_toNat g d hc hr]
  obtain h | h := Nat.eq_zero_or_pos d.c.toNat
  · obtain ⟨hr0, hc0⟩ := pending_eq_zero hr h
    rw [unpkG7_none g d hc0 hr0, h]
    exact lt_of_le_of_lt (Nat.mod_le _ _) (Nat.mod_lt _ (by positivity))
  · rw [unpkG7_some g d h hc hr, show (d.c.toNat + 7) % 8 = d.c.toNat - 1 by omega]
    exact lt_of_le_of_lt (Nat.mod_le _ _) (Nat.mod_lt _ (by positivity))

/-! ### The invariant along the operations (`10_state.md` R23) -/

/-- With nothing pending the encode half meets its invariant at every position, in every mode. -/
theorem EncRegs.inv_of_nothing_pending {e : EncRegs} (hr : e.r = 0) (hc : e.c = 0) : e.Inv :=
  ⟨fun _ => ⟨hr, hc⟩, by simp [hr, hc], fun _ => ⟨hr, hc⟩⟩

/-- With nothing pending the decode half meets its invariant at every position, in every mode. -/
theorem DecRegs.inv_of_nothing_pending {d : DecRegs} (hr : d.r = 0) (hc : d.c = 0) : d.Inv :=
  ⟨fun _ => ⟨hr, hc⟩, by simp [hr, hc], fun _ => ⟨hr, hc⟩⟩

theorem EncRegs.Inv.idle {e : EncRegs} (h : e.Inv) (hst : e.st = .idle) : e.r = 0 ∧ e.c = 0 := h.1 hst

theorem EncRegs.Inv.pending {e : EncRegs} (h : e.Inv) : e.c.toNat ≤ 6 ∧ e.r.toNat < 2 ^ e.c.toNat := h.2.1

theorem DecRegs.Inv.rest {d : DecRegs} (h : d.Inv) (hst : d.st ≠ .body) : d.r = 0 ∧ d.c = 0 := h.1 hst

theorem DecRegs.Inv.pending {d : DecRegs} (h : d.Inv) : d.c.toNat ≤ 7 ∧ d.r.toNat < 2 ^ d.c.toNat := h.2.1

theorem EncRegs.Inv.inFrame {e : EncRegs} (h : e.Inv) : e.inFrame.Inv := by
  cases hst : e.st with
  | idle =>
    obtain ⟨hr, hc⟩ := h.idle hst
    exact EncRegs.inv_of_nothing_pending (by simp [hr]) (by simp [hc])
  | body => rwa [EncRegs.inFrame_body hst]

theorem encAbsorb_inv (b : Byte) {e : EncRegs} (h : e.Inv) (hst : e.st = .body) : (encAbsorb b e).regs.Inv := by
  obtain ⟨hc, hr⟩ := h.pending
  cases hm : e.lmode with
  | binary =>
    refine ⟨by simp [hst], ?_, by simp [hm]⟩
    rw [encAbsorb_binary b hm]
    have hc' := packB8_c_toNat b e hc hr
    exact ⟨by omega, packB8_r_lt b e hc hr⟩
  | ascii => rwa [encAbsorb_ascii b hm, packA_regs]

theorem decAbsorb_inv (g : Byte) {d : DecRegs} (h : d.Inv) (hst : d.st = .body) : (decAbsorb g d).regs.Inv := by
  obtain ⟨hc, hr⟩ := h.pending
  cases hm : d.lmode with
  | binary =>
    refine ⟨by simp [hst], ?_, by simp [hm]⟩
    rw [decAbsorb_binary g hm]
    have hc' := unpkG7_c_toNat g d hc hr
    exact ⟨by omega, unpkG7_r_lt g d hc hr⟩
  | ascii => rwa [decAbsorb_ascii g hm, unpkA_regs]

theorem encByte_inv (b : Byte) {e : EncRegs} (h : e.Inv) : (encByte b e).regs.Inv := by
  rw [encByte_regs]; exact encAbsorb_inv b h.inFrame e.inFrame_st

theorem encEop_inv (e : EncRegs) : (encEop e).regs.Inv := by
  rw [encEop_regs]; exact EncRegs.inv_of_nothing_pending rfl rfl

/-- Outside BODY nothing is pending, and no byte but a body group adds pending bits. -/
theorem decByte_inv (g : Byte) {d : DecRegs} (h : d.Inv) : (decByte g d).regs.Inv := by
  cases hst : d.st with
  | hdr0 =>
    obtain ⟨hr, hc⟩ := h.rest (by simp [hst])
    rw [decByte_hdr0 g hst]
    split <;> exact DecRegs.inv_of_nothing_pending hr hc
  | hdr1 =>
    obtain ⟨hr, hc⟩ := h.rest (by simp [hst])
    rw [decByte_hdr1 g hst]
    split
    · exact DecRegs.inv_of_nothing_pending rfl rfl
    · exact DecRegs.inv_of_nothing_pending hr hc
  | body =>
    rw [decByte_body g hst]
    split
    · exact DecRegs.inv_of_nothing_pending rfl rfl
    · exact decAbsorb_inv g h hst
  | skip => rwa [decByte_skip g hst, decSkip_regs]

theorem decEom_inv (d : DecRegs) : (decEom d).regs.Inv := by
  rw [decEom_regs]; exact DecRegs.inv_of_nothing_pending rfl rfl

theorem reset_inv : State.reset.Inv :=
  ⟨EncRegs.inv_of_nothing_pending rfl rfl, DecRegs.inv_of_nothing_pending rfl rfl⟩

/-- Every operation that a step can run keeps the invariant; a wire symbol runs through D.BYTE only, at its own
position (log 5). -/
theorem exec_keeps_inv {i : Instr} (hi : i.isLine = true) {s t : State} (h : s.Inv) (hx : exec i s = .next t) :
    t.Inv := by
  have ⟨he, hd⟩ := h
  cases i with
  | eByte b => cases hx; exact ⟨encByte_inv b he, hd⟩
  | eEop => cases hx; exact ⟨encEop_inv s.enc, hd⟩
  | dByte g => cases hx; exact ⟨he, decByte_inv g hd⟩
  | dEom => cases hx; exact ⟨he, decEom_inv s.dec⟩
  | cfgWr a x => cases a <;> (cases hx; exact h)
  | cfgRd a => cases hx; exact h
  | reset => cases hx; exact reset_inv
  | _ => cases hi

/-! ### Totality (`60_exceptions.md` R130, R138) -/

theorem exec_total (i : Instr) (s : State) : ∃ t, exec i s = .next t := by
  cases i <;> exact ⟨_, rfl⟩

theorem step_total (s : State) : ∃ t, step s = .next t := by
  cases hf : fetch s with
  | run i u => rw [step_run hf]; exact exec_total i u
  | noOp u => exact ⟨u, step_noOp hf⟩

/-! ### The bit counters over payload bytes and groups (`10_state.md` R12, R16) -/

theorem cfgMode_of_lt {w : Byte} (h : w.toNat < 128) : cfgMode w = .binary := by
  have hbit : w.getLsbD 7 = false := Nat.testBit_lt_two_pow h
  rw [cfgMode, hbit]; rfl

theorem runScript_eByte_c (b : List Byte) (s : State) (h : s.enc.Inv) (hm : s.enc.inFrame.lmode = .binary) :
    ∃ t, runScript (b.map .eByte) s = .next t ∧ t.enc.c.toNat = (s.enc.c.toNat + b.length) % 7 := by
  induction b generalizing s with
  | nil => exact ⟨s, rfl, by have := h.pending; simp; omega⟩
  | cons x xs ih =>
    obtain ⟨hc, hr⟩ := h.inFrame.pending
    have hc' : (encByte x s.enc).regs.c.toNat = (s.enc.c.toNat + 1) % 7 := by
      rw [encByte_regs, encAbsorb_binary x hm, packB8_c_toNat x _ hc hr, EncRegs.inFrame_c]
    have hm' : (encByte x s.enc).regs.inFrame.lmode = .binary := by
      rw [EncRegs.inFrame_body (by simp), encByte_regs, encAbsorb_lmode, hm]
    obtain ⟨t, ht, htc⟩ := ih (s.applyEnc (encByte x)) (encByte_inv x h) hm'
    refine ⟨t, by rw [List.map_cons, runScript_cons_next (exec_eByte x s), ht], ?_⟩
    rw [htc, State.applyEnc_enc, hc', List.length_cons]; omega

theorem runScript_dByte_c (g : List Byte) (s : State) (h : s.dec.Inv) (hst : s.dec.st = .body)
    (hm : s.dec.lmode = .binary) (hg : ∀ x ∈ g, x ≠ Config.eox) :
    ∃ t, runScript (g.map .dByte) s = .next t ∧ t.dec.c.toNat = (s.dec.c.toNat + 7 * g.length) % 8 := by
  induction g generalizing s with
  | nil => exact ⟨s, rfl, by have := h.pending; simp; omega⟩
  | cons x xs ih =>
    obtain ⟨hc, hr⟩ := h.pending
    have hx : decByte x s.dec = decAbsorb x s.dec := by
      rw [decByte_body x hst, if_neg (hg x List.mem_cons_self)]
    have hc' : (decByte x s.dec).regs.c.toNat = (s.dec.c.toNat + 7) % 8 := by
      rw [hx, decAbsorb_binary x hm, unpkG7_c_toNat x _ hc hr]
    obtain ⟨t, ht, htc⟩ := ih (s.applyDec (decByte x)) (decByte_inv x h) (by simp [hx, hst]) (by simp [hx, hm])
      (fun y hy => hg y (List.mem_cons_of_mem x hy))
    refine ⟨t, by rw [List.map_cons, runScript_cons_next (exec_dByte x s), ht], ?_⟩
    rw [htc, State.applyDec_dec, hc', List.length_cons]; omega

/-! ### The statements -/

/-- Settles O43: a step runs an operation in a state with the same registers, or no operation. -/
theorem stepKeepsInvariant : Obligations.StepKeepsInvariant := by
  intro s t h hstep
  cases hf : fetch s with
  | run i u =>
    obtain ⟨he, hd, -, -, -, -, hline⟩ := fetch_run_regs hf
    have hu : u.Inv := by rw [State.Inv, he, hd]; exact h
    exact exec_keeps_inv hline hu (step_run hf ▸ hstep)
  | noOp u =>
    obtain ⟨he, hd, -, -⟩ := fetch_noOp_regs hf
    rw [step_noOp hf] at hstep
    cases hstep
    rw [State.Inv, he, hd]; exact h

/-- Settles O44, by induction on the number of steps. -/
theorem everyRunIsSafe : Obligations.EveryRunIsSafe := by
  intro n
  induction n with
  | zero => exact fun s h => ⟨s, rfl, h⟩
  | succ n ih =>
    intro s h
    obtain ⟨u, hu⟩ := step_total s
    obtain ⟨t, ht, hinv⟩ := ih u (stepKeepsInvariant s u h hu)
    exact ⟨t, by rw [runSteps_succ_next hu, ht], hinv⟩

/-- Settles O39: an operation of a half is a function of that half's registers. -/
theorem halvesShareNothing : Obligations.HalvesShareNothing := by
  intro i s₁ s₂
  refine ⟨isEncSide_or_isDecSide i, fun h hr heq => ?_, fun h hr heq => ?_, _, _, rfl, rfl, rfl, rfl⟩
  · obtain ⟨f, rd, hx⟩ := exec_of_isEncSide h hr
    exact ⟨_, _, (f s₁.enc).out, rd s₁.enc, hx s₁, hx s₂, by simp [heq], rfl, by simp [heq], rfl, by simp [heq],
      rfl, rfl, rfl, rfl⟩
  · obtain ⟨f, rd, hx⟩ := exec_of_isDecSide h hr
    exact ⟨_, _, (f s₁.dec).out, rd s₁.dec, hx s₁, hx s₂, by simp [heq], rfl, by simp [heq], rfl, by simp [heq],
      rfl, rfl, rfl, rfl⟩

/-- Settles O45: each byte adds 1 to `ENC_C` modulo 7 and each group 7 to `DEC_C` modulo 8. -/
theorem bitCountersCountModulo : Obligations.BitCountersCountModulo := by
  refine ⟨fun b s h hst hcfg => ?_, fun g s h hst hm hc hg => ?_⟩
  · obtain ⟨-, hc⟩ := h.idle hst
    have hm : s.enc.inFrame.lmode = .binary := by rw [EncRegs.inFrame_idle hst]; exact cfgMode_of_lt hcfg
    simpa [hc] using runScript_eByte_c b s h hm
  · have hg' : ∀ x ∈ g, x ≠ Config.eox := fun x hx he => hg x hx (by rw [he]; rfl)
    simpa [hc] using runScript_dByte_c g s h hst hm hg'

/-- Settles O16: both operations are an effect of the encode half on its own registers. -/
theorem encoderLeavesTheRest : Obligations.EncoderLeavesTheRest := by
  rintro i s (⟨d, rfl⟩ | rfl)
  · exact ⟨_, _, exec_eByte d s, rfl, by simp, fun hst => by simp [EncRegs.inFrame_body hst]⟩
  · exact ⟨_, _, exec_eEop s, rfl, by simp, fun hst => by simp [EncRegs.inFrame_body hst]⟩

/-- Settles O30: each of these operations is an effect of the decode half on its own registers. -/
theorem decoderLeavesTheRest : Obligations.DecoderLeavesTheRest := by
  intro i s h
  obtain ⟨f, hf⟩ := exists_decEffect h
  exact ⟨_, _, _, exec_of_decEffect hf s, rfl, decEffect_cfg hf s.dec, fun hv hst => decEffect_lmode hf hv s.dec hst⟩

/-- Settles O36, by evaluating the reset state. -/
theorem resetValues : Obligations.ResetValues := by
  unfold Obligations.ResetValues; decide

/-- Settles O42: nothing is pending after reset. -/
theorem resetMeetsInvariant : Obligations.ResetMeetsInvariant := reset_inv

end Sys2Proof.Machine

/-! SUPPORT. The turns of the schedule one by one, the halves' operations and the configuration registers, the order of
the halves, and whole payloads and messages through a half: the proofs of the statements of `20_memory.md`. -/

namespace Sys2Proof.Machine

/-! ### One turn of the schedule (`20_memory.md` R32) -/

theorem fetch_turn {s : State} {t : Turn} {ts : List Turn} (h : s.turns = t :: ts) :
    fetch s = fetchTurn t { s with turns := ts } := by
  simp only [fetch, h]

theorem fetch_unscheduled_enc {s : State} {w : InToken} {ws : List InToken} (h : s.turns = [])
    (hw : s.encIn = w :: ws) : fetch s = fetchEnc s := by
  simp only [fetch, h, hw]

theorem fetch_unscheduled_dec {s : State} (h : s.turns = []) (hw : s.encIn = []) : fetch s = fetchDec s := by
  simp only [fetch, h, hw]

theorem fetchEnc_token {s : State} {w : InToken} {ws : List InToken} (h : s.encIn = w :: ws) :
    fetchEnc s = .run (decodeEnc w) { s with encIn := ws } := by
  simp only [fetchEnc, h]

theorem fetchEnc_empty {s : State} (h : s.encIn = []) : fetchEnc s = .noOp s := by
  simp only [fetchEnc, h]

theorem fetchDec_token {s : State} {w : InToken} {ws : List InToken} (h : s.decIn = w :: ws) :
    fetchDec s = .run (decodeDec w) { s with decIn := ws } := by
  simp only [fetchDec, h]

theorem fetchDec_empty {s : State} (h : s.decIn = []) : fetchDec s = .noOp s := by
  simp only [fetchDec, h]

/-- Settles O5: the turn is used up first, then the token is taken. -/
theorem stepRunsTheDecodedInstruction : Obligations.StepRunsTheDecodedInstruction := by
  intro s ts w ws x
  refine ⟨fun h hw => ?_, fun h hw => ?_, fun h => step_run (fetch_turn h), fun h => step_run (fetch_turn h)⟩
  · exact step_run ((fetch_turn h).trans (fetchEnc_token hw))
  · exact step_run ((fetch_turn h).trans (fetchDec_token hw))

/-- Settles O6: DEC is looked at only where `enc_in` is empty. -/
theorem stepWithNothingScheduled : Obligations.StepWithNothingScheduled := by
  intro s w ws h
  refine ⟨fun hw => ?_, fun he hw => ?_, fun he hd => ?_⟩
  · exact step_run ((fetch_unscheduled_enc h hw).trans (fetchEnc_token hw))
  · exact step_run ((fetch_unscheduled_dec h he).trans (fetchDec_token hw))
  · exact step_noOp ((fetch_unscheduled_dec h he).trans (fetchDec_empty hd))

/-- Settles O7: no operation runs in any of these turns. -/
theorem hostPortActions : Obligations.HostPortActions := by
  intro s ts w
  refine ⟨fun h => step_noOp (fetch_turn h), fun h => step_noOp (fetch_turn h), fun h => ?_, fun h => ?_,
    fun h he => ?_, fun h hd => ?_⟩
  · rw [step_noOp (fetch_turn h), List.drop_one]
  · rw [step_noOp (fetch_turn h), List.drop_one]
  · exact step_noOp ((fetch_turn h).trans (fetchEnc_empty he))
  · exact step_noOp ((fetch_turn h).trans (fetchDec_empty hd))

/-! ### The order of the halves (`20_memory.md` R43) -/

theorem runScript_total (is : List Instr) (s : State) : ∃ t, runScript is s = .next t := by
  induction is generalizing s with
  | nil => exact ⟨s, rfl⟩
  | cons i is ih =>
    obtain ⟨u, hu⟩ := exec_total i s
    rw [runScript_cons_next hu]
    exact ih u

/-- Two scripts that do the same in a state do the same with any script after them. -/
theorem runScript_append_congr {is js : List Instr} {s : State} (h : runScript is s = runScript js s)
    (ks : List Instr) : runScript (is ++ ks) s = runScript (js ++ ks) s := by
  obtain ⟨t, ht⟩ := runScript_total js s
  rw [runScript_append_next (h.trans ht), runScript_append_next ht]

/-- Only a read returns a value on `cfg` (`43_config_ops.md` R121). -/
theorem exec_rdata {i : Instr} (h : isCfgRead i = false) {s t : State} (hx : exec i s = .next t) :
    t.rdata = s.rdata := by
  cases i with
  | cfgRd a => cases h
  | cfgWr a d => cases a <;> (cases hx; rfl)
  | _ => cases hx; rfl

/-- The kinds of operations whose order can be seen: those of ENC, those of DEC, and the reads. -/
def seenOrders : List (Instr → Bool) := [isEncSide, isDecSide, isCfgRead]

/-- No order in which both operations take part can be seen. -/
def Independent (i j : Instr) : Prop := ∀ p ∈ seenOrders, p i = true → p j = false

theorem Independent.symm {i j : Instr} (h : Independent i j) : Independent j i := by
  intro p hp hj
  by_contra hi
  simp [h p hp (by simpa using hi)] at hj

/-- Only RESET is both halves' operation. -/
theorem ne_reset_of_isDecSide_false {i : Instr} (h : isDecSide i = false) : i ≠ .reset := by
  rintro rfl; cases h

theorem ne_reset_of_isEncSide_false {i : Instr} (h : isEncSide i = false) : i ≠ .reset := by
  rintro rfl; cases h

/-- The two halves share no register and no port, and at most one of the two operations is a read. -/
theorem runScript_swap_of_isEncSide {i j : Instr} (h : Independent i j) (hi : isEncSide i = true) (s : State) :
    runScript [i, j] s = runScript [j, i] s := by
  have hjE : isEncSide j = false := h isEncSide (by simp [seenOrders]) hi
  have hjD : isDecSide j = true := (isEncSide_or_isDecSide j).resolve_left (by simp [hjE])
  have hiD : isDecSide i = false := h.symm isDecSide (by simp [seenOrders]) hjD
  obtain ⟨f, rd, hf⟩ := exec_of_isEncSide hi (ne_reset_of_isDecSide_false hiD)
  obtain ⟨g, rd', hg⟩ := exec_of_isDecSide hjD (ne_reset_of_isEncSide_false hjE)
  have hrd : rd s.enc = [] ∨ rd' s.dec = [] := by
    cases hr : isCfgRead i with
    | true => exact .inr (by simpa using exec_rdata (h isCfgRead (by simp [seenOrders]) hr) (hg s))
    | false => exact .inl (by simpa using exec_rdata hr (hf s))
  rw [runScript_cons_next (hf s), runScript_cons_next (hg s), runScript_cons_next (hg _), runScript_cons_next (hf _)]
  obtain hrd | hrd := hrd <;> simp [State.applyEnc, State.applyDec, hrd]

theorem runScript_swap {i j : Instr} (h : Independent i j) (s : State) : runScript [i, j] s = runScript [j, i] s := by
  obtain hi | hi := isEncSide_or_isDecSide i
  · exact runScript_swap_of_isEncSide h hi s
  · have hjD : isDecSide j = false := h isDecSide (by simp [seenOrders]) hi
    have hjE : isEncSide j = true := (isEncSide_or_isDecSide j).resolve_right (by simp [hjD])
    exact (runScript_swap_of_isEncSide h.symm hjE s).symm

/-- An operation may be moved before operations independent of it. -/
theorem runScript_move_front {i : Instr} {pre : List Instr} (h : ∀ j ∈ pre, Independent i j) (post : List Instr)
    (s : State) : runScript (pre ++ i :: post) s = runScript (i :: (pre ++ post)) s := by
  induction pre generalizing s with
  | nil => rfl
  | cons j pre ih =>
    obtain ⟨t, ht⟩ := exec_total j s
    calc runScript (j :: pre ++ i :: post) s
      _ = runScript (pre ++ i :: post) t := runScript_cons_next ht _
      _ = runScript (i :: (pre ++ post)) t := ih (fun k hk => h k (List.mem_cons_of_mem j hk)) t
      _ = runScript ([j, i] ++ (pre ++ post)) s := (runScript_cons_next ht _).symm
      _ = runScript ([i, j] ++ (pre ++ post)) s :=
        runScript_append_congr (runScript_swap (h j List.mem_cons_self) s).symm _

/-- Where the first `i` of a list stands behind `pre`, and the operations of a kind are `i` first and then those of
`is`: `pre` holds none of that kind, and without that `i` the operations of the kind are those of `is`. -/
theorem filter_first {α : Type} {p : α → Bool} {i : α} {is pre post : List α} (hi : i ∉ pre)
    (h : (i :: is).filter p = (pre ++ i :: post).filter p) :
    is.filter p = (pre ++ post).filter p ∧ (p i = true → ∀ j ∈ pre, p j = false) := by
  cases hp : p i with
  | false => exact ⟨by simpa [hp] using h, by simp⟩
  | true =>
    simp only [List.filter_append, List.filter_cons_of_pos hp] at h ⊢
    have hpre : pre.filter p = [] := by
      cases hf : pre.filter p with
      | nil => rfl
      | cons k ks =>
        rw [hf, List.cons_append, List.cons.injEq] at h
        exact absurd (List.mem_of_mem_filter (p := p) (by rw [hf, h.1]; exact List.mem_cons_self)) hi
    refine ⟨by simpa [hpre] using h, fun _ j hj => ?_⟩
    simpa using List.filter_eq_nil_iff.1 hpre j hj

/-- Scripts that agree in every order that can be seen do the same. -/
theorem runScript_eq_of_seenOrders {is js : List Instr} (h : ∀ p ∈ seenOrders, is.filter p = js.filter p) (s : State) :
    runScript is s = runScript js s := by
  induction is generalizing js s with
  | nil =>
    cases js with
    | nil => rfl
    | cons j js =>
      obtain hj | hj := isEncSide_or_isDecSide j
      · have := h isEncSide (by simp [seenOrders])
        simp [hj] at this
      · have := h isDecSide (by simp [seenOrders])
        simp [hj] at this
  | cons i is ih =>
    have hmem : i ∈ js := by
      obtain hi | hi := isEncSide_or_isDecSide i
      · exact List.mem_of_mem_filter (p := isEncSide) (by rw [← h _ (by simp [seenOrders])]; simp [hi])
      · exact List.mem_of_mem_filter (p := isDecSide) (by rw [← h _ (by simp [seenOrders])]; simp [hi])
    obtain ⟨pre, post, rfl, hpre⟩ := List.eq_append_cons_of_mem hmem
    obtain ⟨t, ht⟩ := exec_total i s
    calc runScript (i :: is) s
      _ = runScript is t := runScript_cons_next ht _
      _ = runScript (pre ++ post) t := ih (fun p hp => (filter_first hpre (h p hp)).1) t
      _ = runScript (i :: (pre ++ post)) s := (runScript_cons_next ht _).symm
      _ = runScript (pre ++ i :: post) s :=
        (runScript_move_front (fun j hj p hp hi => (filter_first hpre (h p hp)).2 hi j hj) post s).symm

/-- Settles O40: the orders compared are the ones that can be seen. -/
theorem interleavingIsInvisible : Obligations.InterleavingIsInvisible := by
  intro is js s hE hD hR
  have h : ∀ p ∈ seenOrders, is.filter p = js.filter p := by simpa [seenOrders] using ⟨hE, hD, hR⟩
  obtain ⟨t, ht⟩ := runScript_total js s
  exact ⟨t, (runScript_eq_of_seenOrders h s).trans ht, ht⟩

/-! ### Where the configuration registers are read (`20_memory.md` R46) -/

/-- The encode half with another value in `ENC_CFG`. -/
def EncRegs.withCfg (e : EncRegs) (w : Byte) : EncRegs := { e with cfg := w }

/-- The effect with another value in `ENC_CFG`: the same tokens. -/
def EncEff.withCfg (x : EncEff) (w : Byte) : EncEff := { x with regs := x.regs.withCfg w }

/-- The decode half with another value in `DEC_CFG`. -/
def DecRegs.withCfg (d : DecRegs) (w : Byte) : DecRegs := { d with cfg := w }

/-- The effect with another value in `DEC_CFG`: the same tokens and labels. -/
def DecEff.withCfg (x : DecEff) (w : Byte) : DecEff := { x with regs := x.regs.withCfg w }

theorem packLoop_withCfg (n : Nat) (e : EncRegs) (w : Byte) : packLoop n (e.withCfg w) = (packLoop n e).withCfg w := by
  induction n generalizing e with
  | zero => rfl
  | succ n ih =>
    by_cases h : 7 ≤ e.c
    · rw [packLoop_go n e h, packLoop_go n (e.withCfg w) h]
      have hrest := ih { e with r := modPow2 e.r (e.c - 7).toNat, c := e.c - 7 }
      exact congrArg (fun x : EncEff => (⟨x.regs, Token.byte (topGroup e.r e.c) :: x.out⟩ : EncEff)) hrest
    · rw [packLoop_stop _ e h, packLoop_stop _ (e.withCfg w) h]; rfl

theorem encAbsorb_withCfg (b : Byte) (e : EncRegs) (w : Byte) :
    encAbsorb b (e.withCfg w) = (encAbsorb b e).withCfg w := by
  cases h : e.lmode with
  | binary =>
    rw [encAbsorb_binary b h, encAbsorb_binary b (show (e.withCfg w).lmode = _ from h)]
    exact packLoop_withCfg 2 { e with r := shiftIn8 e.r b, c := e.c + 8 } w
  | ascii => rw [encAbsorb_ascii b h, encAbsorb_ascii b (show (e.withCfg w).lmode = _ from h)]; rfl

theorem encEnd_withCfg (e : EncRegs) (w : Byte) : encEnd (e.withCfg w) = (encEnd e).withCfg w := by
  obtain ⟨cfg, st, lmode, r, c⟩ := e
  cases lmode <;> rfl

theorem encByte_withCfg (b : Byte) {e : EncRegs} (h : e.st = .body) (w : Byte) :
    encByte b (e.withCfg w) = (encByte b e).withCfg w := by
  have h' : (e.withCfg w).st = .body := h
  simp only [encByte, h, h', encAbsorb_withCfg]

theorem encEop_withCfg {e : EncRegs} (h : e.st = .body) (w : Byte) : encEop (e.withCfg w) = (encEop e).withCfg w := by
  have h' : (e.withCfg w).st = .body := h
  simp only [encEop, h, h', encEnd_withCfg]

theorem unpkG7_withCfg (g : Byte) (d : DecRegs) (w : Byte) : unpkG7 g (d.withCfg w) = (unpkG7 g d).withCfg w := by
  by_cases h : 8 ≤ d.c + 7
  · simp only [unpkG7, DecRegs.withCfg, h, if_true]; rfl
  · simp only [unpkG7, DecRegs.withCfg, h, if_false]; rfl

theorem decAbsorb_withCfg (g : Byte) (d : DecRegs) (w : Byte) :
    decAbsorb g (d.withCfg w) = (decAbsorb g d).withCfg w := by
  cases h : d.lmode with
  | binary => rw [decAbsorb_binary g h, decAbsorb_binary g (show (d.withCfg w).lmode = _ from h), unpkG7_withCfg]
  | ascii => rw [decAbsorb_ascii g h, decAbsorb_ascii g (show (d.withCfg w).lmode = _ from h)]; rfl

theorem decByte_withCfg (g : Byte) {d : DecRegs} (hst : d.st ≠ .hdr1) (w : Byte) :
    decByte g (d.withCfg w) = (decByte g d).withCfg w := by
  cases h : d.st with
  | hdr0 =>
    rw [decByte_hdr0 g h, decByte_hdr0 g (show (d.withCfg w).st = _ from h)]
    split <;> rfl
  | hdr1 => exact absurd h hst
  | body =>
    rw [decByte_body g h, decByte_body g (show (d.withCfg w).st = _ from h)]
    split
    · rfl
    · exact decAbsorb_withCfg g d w
  | skip => rw [decByte_skip g h, decByte_skip g (show (d.withCfg w).st = _ from h)]; rfl

theorem decEom_withCfg (d : DecRegs) (w : Byte) : decEom (d.withCfg w) = (decEom d).withCfg w := by
  obtain ⟨cfg, st, lmode, r, c⟩ := d
  cases st <;> rfl

theorem applyEnc_withCfg {f : EncRegs → EncEff} {s : State} {w : Byte} (h : f (s.enc.withCfg w) = (f s.enc).withCfg w) :
    ({ s with enc := { s.enc with cfg := w } } : State).applyEnc f =
      { s.applyEnc f with enc := { (s.applyEnc f).enc with cfg := w } } :=
  congrArg (fun x : EncEff => { s with enc := x.regs, encOut := s.encOut ++ x.out }) h

theorem applyDec_withCfg {f : DecRegs → DecEff} {s : State} {w : Byte} (h : f (s.dec.withCfg w) = (f s.dec).withCfg w) :
    ({ s with dec := { s.dec with cfg := w } } : State).applyDec f =
      { s.applyDec f with dec := { (s.applyDec f).dec with cfg := w } } :=
  congrArg (fun x : DecEff =>
    { s with dec := x.regs, decOut := s.decOut ++ x.out, rejects := s.rejects ++ x.rejects }) h

/-- Settles O38: these effects are the same with another value in the configuration register. -/
theorem configurationIsSampledOnce : Obligations.ConfigurationIsSampledOnce := by
  intro w s
  refine ⟨?_, ?_⟩
  · rintro i (⟨d, rfl⟩ | rfl) hst
    · exact ⟨_, exec_eByte d s, congrArg _ (applyEnc_withCfg (encByte_withCfg d hst w))⟩
    · exact ⟨_, exec_eEop s, congrArg _ (applyEnc_withCfg (encEop_withCfg hst w))⟩
  · rintro i (⟨⟨g, rfl⟩, hst⟩ | rfl)
    · exact ⟨_, exec_dByte g s, congrArg _ (applyDec_withCfg (decByte_withCfg g hst w))⟩
    · exact ⟨_, exec_dEom s, congrArg _ (applyDec_withCfg (decEom_withCfg s.dec w))⟩

/-! ### A payload through the encode half (`20_memory.md` R44, `41_frame_encode.md` R96) -/

theorem cfgWord_getLsbD (m : Mode) (v : Vid) (i : Nat) :
    (cfgWord m v).getLsbD i = if i < 7 then v.getLsbD i else m.code.getLsbD (i - 7) :=
  BitVec.getLsbD_append

@[simp] theorem cfgMode_cfgWord (m : Mode) (v : Vid) : cfgMode (cfgWord m v) = m := by
  rw [cfgMode, cfgWord_getLsbD]; cases m <;> rfl

@[simp] theorem cfgVid_cfgWord (m : Mode) (v : Vid) : cfgVid (cfgWord m v) = v := by
  ext i hi
  simp [cfgVid, cfgWord_getLsbD, hi]

theorem State.applyEnc_applyEnc (s : State) (f g : EncRegs → EncEff) :
    (s.applyEnc f).applyEnc g = s.applyEnc fun e => (f e).andThen g := by
  simp [State.applyEnc]

/-- The tokens of a whole payload on the encode half's registers. -/
def encPayload : List Byte → EncRegs → EncEff
  | [], e => encEop e
  | b :: bs, e => (encByte b e).andThen (encPayload bs)

theorem runScript_encode (b : List Byte) (s : State) :
    runScript (Script.encode b) s = .next (s.applyEnc (encPayload b)) := by
  induction b generalizing s with
  | nil => rfl
  | cons x xs ih =>
    calc runScript (Script.encode (x :: xs)) s
      _ = runScript (Script.encode xs) (s.applyEnc (encByte x)) := runScript_cons_next (exec_eByte x s) _
      _ = .next ((s.applyEnc (encByte x)).applyEnc (encPayload xs)) := ih _
      _ = .next (s.applyEnc (encPayload (x :: xs))) := by rw [State.applyEnc_applyEnc]; rfl

/-- The bytes with which a token opens a frame: SOX and the vendor id in IDLE (`41_frame_encode.md` R91). -/
def EncRegs.header (e : EncRegs) : List Byte :=
  match e.st with
  | .idle => [Config.sox, vidByte (cfgVid e.cfg)]
  | .body => []

theorem EncRegs.header_idle {e : EncRegs} (h : e.st = .idle) : e.header = [Config.sox, vidByte (cfgVid e.cfg)] := by
  simp only [EncRegs.header, h]

theorem EncRegs.header_body {e : EncRegs} (h : e.st = .body) : e.header = [] := by
  simp only [EncRegs.header, h]

theorem encByte_out (b : Byte) (e : EncRegs) :
    (encByte b e).out = e.header.map Token.byte ++ (encAbsorb b e.inFrame).out := by
  cases h : e.st with
  | idle => simp [encByte, h, EncRegs.inFrame_idle h, EncRegs.header_idle h]
  | body => simp [encByte, h, EncRegs.inFrame_body h, EncRegs.header_body h]

/-- The end of the body does not depend on `ENC_ST`. -/
theorem encFinish_out_st (e : EncRegs) (x : EncSt) : (encFinish { e with st := x }).out = (encFinish e).out := by
  cases h : e.lmode <;> simp only [encFinish, h, packFl]

theorem encEop_out (e : EncRegs) :
    (encEop e).out = e.header.map Token.byte ++ (encFinish e.inFrame).out ++ [Token.fLast] := by
  cases h : e.st with
  | idle =>
    have hst : (encFinish e.inFrame).out = (encFinish e.latchMode).out := by
      rw [EncRegs.inFrame_idle h]; exact encFinish_out_st e.latchMode .body
    simp [encEop, h, encEnd, EncRegs.header_idle h, hst]
  | body => simp [encEop, h, encEnd, EncRegs.inFrame_body h, EncRegs.header_body h]

theorem packDrain_stop (m r c : Nat) (h : c < 7) : Codec.packDrain m r c = ([], r, c) := by
  cases m with
  | zero => rfl
  | succ m => rw [Codec.packDrain, if_neg (by omega)]

/-- The loop of PACK.B8 is the inner loop of `pack_bin` where the rounds of both suffice (`40_bitpack.md` R70, R71). -/
theorem packLoop_eq_packDrain (n m : Nat) (e : EncRegs) (hn : e.c.toNat < 7 * n + 7) (hm : e.c.toNat < 7 * m + 7) :
    (packLoop n e).out = (Codec.packDrain m e.r.toNat e.c.toNat).1.map Token.byte ∧
      (packLoop n e).regs.r.toNat = (Codec.packDrain m e.r.toNat e.c.toNat).2.1 ∧
      (packLoop n e).regs.c.toNat = (Codec.packDrain m e.r.toNat e.c.toNat).2.2 := by
  induction n generalizing m e with
  | zero => rw [packDrain_stop m _ _ (by omega)]; exact ⟨rfl, rfl, rfl⟩
  | succ n ih =>
    by_cases h : 7 ≤ e.c
    · have h7 := cnt_seven_le.1 h
      have hlt := e.c.isLt
      have hsub : (e.c - 7).toNat = e.c.toNat - 7 := Cnt.sub_toNat _ _ h
      have hr : (modPow2 e.r (e.c.toNat - 7)).toNat = e.r.toNat % 2 ^ (e.c.toNat - 7) :=
        modPow2_toNat _ _ (by omega)
      have hg : topGroup e.r e.c = BitVec.ofNat 8 ((e.r.toNat >>> (e.c.toNat - 7)) &&& 0x7F) := by
        apply BitVec.eq_of_toNat_eq
        rw [topGroup_toNat _ _ h, and_127, Nat.shiftRight_eq_div_pow, BitVec.toNat_ofNat]
        omega
      obtain ⟨m, rfl⟩ : ∃ k, m = k + 1 := ⟨m - 1, by omega⟩
      obtain ⟨ho, hr', hc'⟩ := ih m { e with r := modPow2 e.r (e.c - 7).toNat, c := e.c - 7 }
        (by simp only [hsub]; omega) (by simp only [hsub]; omega)
      rw [packLoop_go n e h, Codec.packDrain, if_pos h7]
      simp only [hr, hsub] at ho hr' hc'
      simp only [ho, hr', hc', hsub, hg, List.map_cons, and_self]
    · have h7 : e.c.toNat < 7 := by have := mt cnt_seven_le.2 h; omega
      rw [packLoop_stop _ e h, packDrain_stop m _ _ h7]; exact ⟨rfl, rfl, rfl⟩

/-- `pack` of the bytes still to come, from the pending bits on (`40_bitpack.md` R78). -/
def EncRegs.packRest (e : EncRegs) (b : List Byte) : List Byte :=
  match e.lmode with
  | .binary => Codec.packFrom e.r.toNat e.c.toNat b
  | .ascii => Codec.packAsc b

theorem EncRegs.packRest_binary {e : EncRegs} (h : e.lmode = .binary) (b : List Byte) :
    e.packRest b = Codec.packFrom e.r.toNat e.c.toNat b := by
  simp only [EncRegs.packRest, h]

theorem EncRegs.packRest_ascii {e : EncRegs} (h : e.lmode = .ascii) (b : List Byte) :
    e.packRest b = Codec.packAsc b := by
  simp only [EncRegs.packRest, h]

theorem EncRegs.packRest_at_rest {e : EncRegs} (hr : e.r = 0) (hc : e.c = 0) (b : List Byte) :
    e.packRest b = Codec.pack e.lmode b := by
  cases h : e.lmode with
  | binary => rw [packRest_binary h, hr, hc]; rfl
  | ascii => rw [packRest_ascii h]; rfl

theorem encFinish_out {e : EncRegs} (h : e.Inv) : (encFinish e).out = (e.packRest []).map Token.byte := by
  obtain ⟨hc, hr⟩ := h.pending
  cases hm : e.lmode with
  | binary =>
    rw [EncRegs.packRest_binary hm, Codec.packFrom, show encFinish e = packFl e by simp only [encFinish, hm]]
    obtain h0 | h0 := Nat.eq_zero_or_pos e.c.toNat
    · rw [packFl_empty e (pending_eq_zero hr h0).2, h0]; rfl
    · have hlt : e.r.toNat <<< (7 - e.c.toNat) < 128 := by
        have := Nat.shiftLeft_lt (m := 7 - e.c.toNat) hr
        rwa [show e.c.toNat + (7 - e.c.toNat) = 7 by omega] at this
      rw [packFl_pending e h0 hc hr, if_pos h0, and_127, Nat.mod_eq_of_lt hlt, Nat.shiftLeft_eq]
      rfl
  | ascii => rw [EncRegs.packRest_ascii hm]; simp only [encFinish, hm]; rfl

theorem encAbsorb_packRest {e : EncRegs} (h : e.Inv) (b : Byte) (bs : List Byte) :
    (encAbsorb b e).out ++ ((encAbsorb b e).regs.packRest bs).map Token.byte =
      (e.packRest (b :: bs)).map Token.byte := by
  obtain ⟨hc, hr⟩ := h.pending
  cases hm : e.lmode with
  | binary =>
    have hR : (shiftIn8 e.r b).toNat = (e.r.toNat <<< 8) ||| b.toNat := by
      rw [shiftIn8_toNat _ _ (lt_of_lt_of_le hr (Nat.pow_le_pow_right (by norm_num) hc)),
        ← Nat.shiftLeft_add_eq_or_of_lt b.isLt, Nat.shiftLeft_eq]
    have hC := cnt_add_eight e.c hc
    obtain ⟨ho, hr', hc'⟩ := packLoop_eq_packDrain 2 (e.c.toNat + 8) { e with r := shiftIn8 e.r b, c := e.c + 8 }
      (by simp only [hC]; omega) (by simp only [hC]; omega)
    rw [EncRegs.packRest_binary hm, EncRegs.packRest_binary (by simp [hm]), encAbsorb_binary b hm, packB8, ho, hr', hc',
      Codec.packFrom, List.map_append]
    simp only [hR, hC]
  | ascii =>
    rw [EncRegs.packRest_ascii hm, EncRegs.packRest_ascii (by simp [hm]), encAbsorb_ascii b hm]
    rfl

/-- From every state of the invariant a payload's tokens finish the frame in progress, or make a whole one
(`41_frame_encode.md` R90, R96). -/
theorem encPayload_eq (b : List Byte) {e : EncRegs} (h : e.Inv) :
    encPayload b e = ⟨{ e.inFrame with st := .idle, r := 0, c := 0 },
      (e.header ++ e.inFrame.packRest b).map Token.byte ++ [Token.fLast]⟩ := by
  induction b generalizing e with
  | nil =>
    have ho := encEop_out e
    rw [encFinish_out h.inFrame, ← List.map_append] at ho
    exact congrArg₂ EncEff.mk (encEop_regs e) ho
  | cons x xs ih =>
    have hst : (encByte x e).regs.st = .body := by simp
    have ih := ih (encByte_inv x h)
    rw [EncRegs.inFrame_body hst, EncRegs.header_body hst] at ih
    rw [encPayload, EncEff.andThen, ih]
    refine congrArg₂ EncEff.mk (by ext <;> simp) ?_
    simp [encByte_out, ← encAbsorb_packRest h.inFrame]

/-- From rest a payload's tokens make the frame of `encode`, and leave the half at rest (`41_frame_encode.md` R96). -/
theorem encPayload_at_rest {m : Mode} {v : Vid} {e : EncRegs} (hst : e.st = .idle) (hr : e.r = 0) (hc : e.c = 0)
    (hcfg : e.cfg = cfgWord m v) (b : List Byte) :
    encPayload b e = ⟨{ e with lmode := m }, Codec.frameTokens v m b⟩ := by
  have hin : e.inFrame = { e with st := .body, lmode := m } := by
    rw [EncRegs.inFrame_idle hst, EncRegs.latchMode, hcfg, cfgMode_cfgWord]
  rw [encPayload_eq b (EncRegs.inv_of_nothing_pending hr hc), EncRegs.header_idle hst,
    EncRegs.packRest_at_rest (by simp [hr]) (by simp [hc]), hin, hcfg, cfgVid_cfgWord]
  refine congrArg₂ EncEff.mk ?_ rfl
  ext <;> simp [hst, hr, hc]

/-- Settles O18, by induction on the list of payloads: each frame leaves the half at rest for the next. -/
theorem everyPayloadGivesOneFrame : Obligations.EveryPayloadGivesOneFrame := by
  intro m v bs
  induction bs with
  | nil => exact fun s hst hr hc _ => ⟨s, rfl, by simp, hst, hr, hc, rfl, rfl⟩
  | cons b bs ih =>
    intro s hst hr hc hcfg
    have hb := encPayload_at_rest hst hr hc hcfg b
    obtain ⟨t, ht, hout, hst', hr', hc', hcfg', hdec⟩ := ih (s.applyEnc (encPayload b)) (by simp [hb, hst])
      (by simp [hb, hr]) (by simp [hb, hc]) (by simp [hb, hcfg])
    refine ⟨t, ?_, by simp [hout, hb], hst', hr', hc', by simp [hcfg', hb], hdec⟩
    rw [List.flatMap_cons, runScript_append_next (runScript_encode b s), ht]

/-! ### A message through the decode half (`20_memory.md` R44, `42_frame_decode.md` R111) -/

/-- One operation of the decode half after another, the tokens and the labels in order. -/
def DecEff.andThen (x : DecEff) (f : DecRegs → DecEff) : DecEff :=
  { regs := (f x.regs).regs, out := x.out ++ (f x.regs).out, rejects := x.rejects ++ (f x.regs).rejects }

theorem State.applyDec_applyDec (s : State) (f g : DecRegs → DecEff) :
    (s.applyDec f).applyDec g = s.applyDec fun d => (f d).andThen g := by
  simp [State.applyDec, DecEff.andThen]

/-- After an operation that emits and rejects nothing. -/
theorem DecEff.quiet_andThen (d : DecRegs) (f : DecRegs → DecEff) : (DecEff.quiet d).andThen f = f d := rfl

/-- The tokens of a whole message on the decode half's registers. -/
def decMessage : List Byte → DecRegs → DecEff
  | [], d => decEom d
  | g :: gs, d => (decByte g d).andThen (decMessage gs)

theorem runScript_decode (raw : List Byte) (s : State) :
    runScript (Script.decode raw) s = .next (s.applyDec (decMessage raw)) := by
  induction raw generalizing s with
  | nil => rfl
  | cons g gs ih =>
    calc runScript (Script.decode (g :: gs)) s
      _ = runScript (Script.decode gs) (s.applyDec (decByte g)) := runScript_cons_next (exec_dByte g s) _
      _ = .next ((s.applyDec (decByte g)).applyDec (decMessage gs)) := ih _
      _ = .next (s.applyDec (decMessage (g :: gs))) := by rw [State.applyDec_applyDec]; rfl

theorem unpackDrain_stop (n r c : Nat) (h : c < 8) : Codec.unpackDrain n r c = ([], c) := by
  cases n with
  | zero => rfl
  | succ n => rw [Codec.unpackDrain, if_neg (by omega)]

/-- The inner loop of `unpack_bin` runs at most once (`40_bitpack.md` R74, R75). -/
theorem unpackDrain_once (n r c : Nat) (h : 8 ≤ c) (h16 : c < 16) :
    Codec.unpackDrain (n + 1) r c = ([BitVec.ofNat 8 ((r >>> (c - 8)) &&& 0xFF)], c - 8) := by
  rw [Codec.unpackDrain, if_pos h, unpackDrain_stop n r _ (by omega)]

/-- `unpack` of the body bytes still to come, from the pending bits on (`40_bitpack.md` R78). -/
def DecRegs.unpackRest (d : DecRegs) (g : List Byte) : List Byte :=
  match d.lmode with
  | .binary => Codec.unpackFrom d.r.toNat d.c.toNat g
  | .ascii => Codec.unpackAsc g

theorem DecRegs.unpackRest_binary {d : DecRegs} (h : d.lmode = .binary) (g : List Byte) :
    d.unpackRest g = Codec.unpackFrom d.r.toNat d.c.toNat g := by
  simp only [DecRegs.unpackRest, h]

theorem DecRegs.unpackRest_ascii {d : DecRegs} (h : d.lmode = .ascii) (g : List Byte) :
    d.unpackRest g = Codec.unpackAsc g := by
  simp only [DecRegs.unpackRest, h]

theorem DecRegs.unpackRest_at_rest {d : DecRegs} (hr : d.r = 0) (hc : d.c = 0) (g : List Byte) :
    d.unpackRest g = Codec.unpack d.lmode g := by
  cases h : d.lmode with
  | binary => rw [unpackRest_binary h, hr, hc]; rfl
  | ascii => rw [unpackRest_ascii h]; rfl

@[simp] theorem DecRegs.unpackRest_nil (d : DecRegs) : d.unpackRest [] = [] := by
  cases h : d.lmode with
  | binary => rw [unpackRest_binary h]; rfl
  | ascii => rw [unpackRest_ascii h]; rfl

@[simp] theorem decAbsorb_rejects (g : Byte) (d : DecRegs) : (decAbsorb g d).rejects = [] := by
  cases h : d.lmode with
  | binary => rw [decAbsorb_binary g h, unpkG7_rejects]
  | ascii => rw [decAbsorb_ascii g h]; rfl

/-- UNPK.G7 is one round of `unpack_bin` (`40_bitpack.md` R74, R75). -/
theorem unpkG7_eq_unpackDrain (g : Byte) {d : DecRegs} (hc : d.c.toNat ≤ 7) (hr : d.r.toNat < 2 ^ d.c.toNat) :
    let r' := (d.r.toNat <<< 7) ||| g.toNat
    let x := Codec.unpackDrain (d.c.toNat + 7) r' (d.c.toNat + 7)
    (unpkG7 g d).out = x.1.map Token.byte ∧ (unpkG7 g d).regs.r.toNat = r' % 2 ^ x.2 ∧
      (unpkG7 g d).regs.c.toNat = x.2 := by
  have hR : (shiftIn7 d.r g).toNat = (d.r.toNat <<< 7) ||| g.toNat := by
    rw [shiftIn7_toNat _ _ (lt_of_lt_of_le hr (Nat.pow_le_pow_right (by norm_num) hc)), Nat.shiftLeft_eq]
  have hC := cnt_add_seven d.c hc
  intro r' x
  by_cases h : 8 ≤ d.c + 7
  · have h8 : 8 ≤ d.c.toNat + 7 := hC ▸ cnt_eight_le.1 h
    have hsub : (d.c + 7 - 8).toNat = d.c.toNat + 7 - 8 := by rw [Cnt.sub_toNat _ _ h, hC]; rfl
    have hx : x = ([BitVec.ofNat 8 ((r' >>> (d.c.toNat + 7 - 8)) &&& 0xFF)], d.c.toNat + 7 - 8) :=
      unpackDrain_once _ _ _ h8 (by omega)
    have ht : topByte (shiftIn7 d.r g) (d.c + 7) = BitVec.ofNat 8 ((r' >>> (d.c.toNat + 7 - 8)) &&& 0xFF) := by
      apply BitVec.eq_of_toNat_eq
      rw [topByte_toNat _ _ h, hR, hC, and_255, Nat.shiftRight_eq_div_pow, BitVec.toNat_ofNat, Nat.mod_mod]
    simp only [unpkG7, h, if_true, hx, ht, hsub]
    exact ⟨rfl, by rw [modPow2_toNat _ _ (by omega), hR], trivial⟩
  · have h8 : ¬ 8 ≤ d.c.toNat + 7 := hC ▸ mt cnt_eight_le.2 h
    have hx : x = ([], d.c.toNat + 7) := unpackDrain_stop _ _ _ (by omega)
    simp only [unpkG7, h, if_false, hx, DecEff.quiet, hC]
    exact ⟨rfl, by rw [modPow2_toNat _ _ (by omega), hR], trivial⟩

theorem decAbsorb_unpackRest {d : DecRegs} (h : d.Inv) (g : Byte) (gs : List Byte) :
    (decAbsorb g d).out ++ ((decAbsorb g d).regs.unpackRest gs).map Token.byte =
      (d.unpackRest (g :: gs)).map Token.byte := by
  obtain ⟨hc, hr⟩ := h.pending
  cases hm : d.lmode with
  | binary =>
    obtain ⟨ho, hr', hc'⟩ := unpkG7_eq_unpackDrain g hc hr
    rw [DecRegs.unpackRest_binary hm, DecRegs.unpackRest_binary (by simp [hm]), decAbsorb_binary g hm, ho, hr', hc',
      Codec.unpackFrom, List.map_append]
  | ascii =>
    rw [DecRegs.unpackRest_ascii hm, DecRegs.unpackRest_ascii (by simp [hm]), decAbsorb_ascii g hm]
    rfl

/-- In SKIP the rest of the message is thrown away (`42_frame_decode.md` R107). -/
theorem decMessage_skip (gs : List Byte) {d : DecRegs} (hst : d.st = .skip) : decMessage gs d = .quiet d.toHdr0 := by
  induction gs with
  | nil => simp only [decMessage, decEom, hst]
  | cons g gs ih => rw [decMessage, decByte_skip g hst, decSkip, DecEff.quiet_andThen, ih]

/-- In BODY the rest of the message gives the payload of its bytes up to the first terminator, closed by P.END
(`42_frame_decode.md` R105, R106, R108). -/
theorem decMessage_body (gs : List Byte) {d : DecRegs} (h : d.Inv) (hst : d.st = .body) :
    decMessage gs d = ⟨d.toHdr0, Codec.payloadTokens (some (d.unpackRest (Codec.scanBody gs))), []⟩ := by
  induction gs generalizing d with
  | nil => simp [decMessage, decEom, hst, Codec.scanBody, Codec.payloadTokens, unpkDr, DecRegs.toHdr0]
  | cons g gs ih =>
    rw [decMessage, decByte_body g hst, Codec.scanBody]
    split
    · rw [DecEff.andThen, decMessage_skip gs (d := (decEox d).regs) rfl]
      simp [decEox, DecEff.quiet, Codec.payloadTokens, unpkDr, DecRegs.toHdr0]
    · rw [DecEff.andThen, ih (decAbsorb_inv g h hst) (by simp [hst])]
      simp [Codec.payloadTokens, ← decAbsorb_unpackRest h, DecRegs.toHdr0]

/-- A message that ends before its vendor id (`42_frame_decode.md` R108). -/
theorem decEom_short {d : DecRegs} (hst : d.st = .hdr0 ∨ d.st = .hdr1) (hr : d.r = 0) (hc : d.c = 0) :
    decEom d = ⟨{ d with st := .hdr0 }, [], [.short]⟩ := by
  obtain h | h := hst <;> simp [decEom, h, DecRegs.reject, DecRegs.toHdr0, hr, hc]

/-- The message after its start byte (`42_frame_decode.md` R103, R104, R108). -/
theorem decMessage_hdr1 {m : Mode} {v : Vid} {d : DecRegs} (hst : d.st = .hdr1) (hr : d.r = 0) (hc : d.c = 0)
    (hcfg : d.cfg = cfgWord m v) (gs : List Byte) :
    decMessage gs d =
      ⟨{ d with st := .hdr0, lmode := if Codec.decode v m (Config.sox :: gs) = none then d.lmode else m },
        Codec.payloadTokens (Codec.decode v m (Config.sox :: gs)),
        (Codec.rejectCause v (Config.sox :: gs)).toList⟩ := by
  cases gs with
  | nil =>
    rw [decMessage, decEom_short (.inr hst) hr hc]
    simp [Codec.decode, Codec.rejectCause, Codec.payloadTokens]
  | cons g gs =>
    rw [decMessage, decByte_hdr1 g hst, hcfg, cfgVid_cfgWord]
    split
    next hg =>
      have hbody := decMessage_body gs (d := (decVid d).regs) (DecRegs.inv_of_nothing_pending rfl rfl) rfl
      rw [DecRegs.unpackRest_at_rest rfl rfl] at hbody
      rw [DecEff.andThen, hbody]
      simp [decVid, DecEff.quiet, Codec.decode, Codec.rejectCause, hg, DecRegs.toHdr0, hr, hc, hcfg]
    next hg =>
      rw [DecEff.andThen, decMessage_skip gs (d := (decBadv d).regs) rfl]
      simp [decBadv, DecRegs.reject, DecEff.quiet, Codec.decode, Codec.rejectCause, Codec.payloadTokens, hg,
        DecRegs.toHdr0, hr, hc, hcfg]

/-- A message that does not begin with the start byte (`60_exceptions.md` R131, R135). -/
theorem decode_of_ne_sox (v : Vid) (m : Mode) {g : Byte} (hg : g ≠ Config.sox) (gs : List Byte) :
    Codec.decode v m (g :: gs) = none ∧ Codec.rejectCause v (g :: gs) = some .start := by
  cases gs <;> simp [Codec.decode, Codec.rejectCause, hg]

/-- From rest a message's tokens give what `decode` says, with the label of the first failing check, and leave the half
at rest (`42_frame_decode.md` R111, `60_exceptions.md` R135). -/
theorem decMessage_at_rest {m : Mode} {v : Vid} {d : DecRegs} (hst : d.st = .hdr0) (hr : d.r = 0) (hc : d.c = 0)
    (hcfg : d.cfg = cfgWord m v) (raw : List Byte) :
    decMessage raw d = ⟨{ d with lmode := if Codec.decode v m raw = none then d.lmode else m },
      Codec.payloadTokens (Codec.decode v m raw), (Codec.rejectCause v raw).toList⟩ := by
  cases raw with
  | nil =>
    rw [decMessage, decEom_short (.inl hst) hr hc]
    simp [hst, Codec.decode, Codec.rejectCause, Codec.payloadTokens]
  | cons g gs =>
    rw [decMessage, decByte_hdr0 g hst]
    split
    next hg =>
      rw [decSox, DecEff.quiet_andThen, decMessage_hdr1 (d := { d with st := .hdr1 }) rfl hr hc hcfg, hg, hst]
    next hg =>
      obtain ⟨hnone, hstart⟩ := decode_of_ne_sox v m hg gs
      rw [DecEff.andThen, decMessage_skip gs (d := (decBad0 d).regs) rfl, hnone, hstart]
      simp [decBad0, DecRegs.reject, DecEff.quiet, Codec.payloadTokens, DecRegs.toHdr0, hst, hr, hc]

/-- Settles O32, by induction on the list of messages: each message leaves the half at rest for the next. -/
theorem everyMessageGivesAtMostOnePayload : Obligations.EveryMessageGivesAtMostOnePayload := by
  intro m v raws
  induction raws with
  | nil => exact fun s hst hr hc _ => ⟨s, rfl, by simp, hst, hr, hc, rfl, rfl⟩
  | cons raw raws ih =>
    intro s hst hr hc hcfg
    have hraw := decMessage_at_rest hst hr hc hcfg raw
    obtain ⟨t, ht, hout, hst', hr', hc', hcfg', henc⟩ := ih (s.applyDec (decMessage raw)) (by simp [hraw, hst])
      (by simp [hraw, hr]) (by simp [hraw, hc]) (by simp [hraw, hcfg])
    refine ⟨t, ?_, by simp [hout, hraw], hst', hr', hc', by simp [hcfg', hraw], henc⟩
    rw [List.flatMap_cons, runScript_append_next (runScript_decode raw s), ht]

end Sys2Proof.Machine

/-! SUPPORT. The decoder and the encoder, format by format, a script placed on the ports, and the closed forms of the
Binary body and payload: the proofs of the statements of `30_encoding.md`. -/

namespace Sys2Proof.Machine

/-! ### Words of flag bits above a data byte (`30_encoding.md` R54, R56) -/

/-- The data byte, whatever the flags. -/
theorem extractLsb'_flags_data {n k : Nat} (x : Byte) (hn : 8 ≤ n) :
    (BitVec.ofNat n (256 * k + x.toNat)).extractLsb' 0 8 = x := by
  apply BitVec.eq_of_toNat_eq
  rw [BitVec.extractLsb'_toNat, BitVec.toNat_ofNat, Nat.shiftRight_zero, Nat.mod_mod_of_dvd _ (Nat.pow_dvd_pow 2 hn)]
  omega

/-- A flag, whatever the data byte. -/
theorem getLsbD_flags_data {n k j : Nat} (x : Byte) (hj : j + 8 < n) :
    (BitVec.ofNat n (256 * k + x.toNat)).getLsbD (j + 8) = k.testBit j := by
  have hk : (256 * k + x.toNat) / 2 ^ 8 = k := by omega
  rw [BitVec.getLsbD_ofNat, decide_eq_true hj, Bool.true_and, ← Nat.testBit_div_two_pow, hk]

theorem decodeEnc_flag (k : Nat) (x : Byte) :
    decodeEnc (BitVec.ofNat 9 (256 * k + x.toNat)) = if k.testBit 0 then .eEop else .eByte x := by
  rw [decodeEnc, getLsbD_flags_data (j := 0) x (by decide), extractLsb'_flags_data x (by decide)]

theorem decodeDec_flag (k : Nat) (x : Byte) :
    decodeDec (BitVec.ofNat 9 (256 * k + x.toNat)) = if k.testBit 0 then .dEom else .dByte x := by
  rw [decodeDec, getLsbD_flags_data (j := 0) x (by decide), extractLsb'_flags_data x (by decide)]

theorem decodeCfg_flags (k : Nat) (x : Byte) :
    decodeCfg (BitVec.ofNat 10 (256 * k + x.toNat)) =
      if k.testBit 1 then .cfgWr (if k.testBit 0 then .dec else .enc) x
      else .cfgRd (if k.testBit 0 then .dec else .enc) := by
  rw [decodeCfg, getLsbD_flags_data (j := 0) x (by decide), getLsbD_flags_data (j := 1) x (by decide),
    extractLsb'_flags_data x (by decide)]

theorem decodeEnc_byte (x : Byte) : decodeEnc (BitVec.ofNat 9 x.toNat) = .eByte x := by
  simpa using decodeEnc_flag 0 x

theorem decodeEnc_end (x : Byte) : decodeEnc (BitVec.ofNat 9 (256 + x.toNat)) = .eEop := decodeEnc_flag 1 x

theorem decodeDec_byte (x : Byte) : decodeDec (BitVec.ofNat 9 x.toNat) = .dByte x := by
  simpa using decodeDec_flag 0 x

theorem decodeDec_end (x : Byte) : decodeDec (BitVec.ofNat 9 (256 + x.toNat)) = .dEom := decodeDec_flag 1 x

theorem decodeCfg_write (a : CfgAddr) (x : Byte) :
    decodeCfg (BitVec.ofNat 10 (512 + 256 * a.bit + x.toNat)) = .cfgWr a x := by
  cases a with
  | enc => exact decodeCfg_flags 2 x
  | dec => exact decodeCfg_flags 3 x

theorem decodeCfg_read (a : CfgAddr) (x : Byte) :
    decodeCfg (BitVec.ofNat 10 (256 * a.bit + x.toNat)) = .cfgRd a := by
  cases a with
  | enc => exact decodeCfg_flags 0 x
  | dec => exact decodeCfg_flags 1 x

/-! ### The decoder on numbers that fit the format -/

theorem decode_te {st : DecSt} {vid : Vid} {n : Nat} (h : n < 512) :
    decode st vid .te n = .ok (decodeEnc (BitVec.ofNat 9 n)) := if_pos h

theorem decode_td {st : DecSt} {vid : Vid} {n : Nat} (h : n < 512) :
    decode st vid .td n = .ok (decodeDec (BitVec.ofNat 9 n)) := if_pos h

theorem decode_cr {st : DecSt} {vid : Vid} {n : Nat} (h : n < 1024) :
    decode st vid .cr n = .ok (decodeCfg (BitVec.ofNat 10 n)) := if_pos h

theorem decode_w {st : DecSt} {vid : Vid} {n : Nat} (h : n < 256) :
    decode st vid .w n = .ok (decodeWire st vid (BitVec.ofNat 8 n)) := if_pos h

theorem cfgAddr_bit_le_one (a : CfgAddr) : a.bit ≤ 1 := by cases a <;> decide

theorem decode_te_byte (st : DecSt) (vid : Vid) (x : Byte) : decode st vid .te x.toNat = .ok (.eByte x) := by
  rw [decode_te (by omega), decodeEnc_byte]

theorem decode_te_end (st : DecSt) (vid : Vid) (x : Byte) : decode st vid .te (256 + x.toNat) = .ok .eEop := by
  rw [decode_te (by omega), decodeEnc_end]

theorem decode_td_byte (st : DecSt) (vid : Vid) (x : Byte) : decode st vid .td x.toNat = .ok (.dByte x) := by
  rw [decode_td (by omega), decodeDec_byte]

theorem decode_td_end (st : DecSt) (vid : Vid) (x : Byte) : decode st vid .td (256 + x.toNat) = .ok .dEom := by
  rw [decode_td (by omega), decodeDec_end]

theorem decode_cr_write (st : DecSt) (vid : Vid) (a : CfgAddr) (x : Byte) :
    decode st vid .cr (512 + 256 * a.bit + x.toNat) = .ok (.cfgWr a x) := by
  have ha := cfgAddr_bit_le_one a
  rw [decode_cr (by omega), decodeCfg_write]

theorem decode_cr_read (st : DecSt) (vid : Vid) (a : CfgAddr) (x : Byte) :
    decode st vid .cr (256 * a.bit + x.toNat) = .ok (.cfgRd a) := by
  have ha := cfgAddr_bit_le_one a
  rw [decode_cr (by omega), decodeCfg_read]

/-- The numeric value of a token on an output port (`30_encoding.md` R54, R55). -/
theorem Token.bits_toNat (t : Token) : t.bits.toNat = 256 * t.flag.toNat + t.data.toNat := by
  rw [Token.bits, BitVec.toNat_append, ← Nat.shiftLeft_add_eq_or_of_lt t.data.isLt, Nat.shiftLeft_eq]
  simp [Nat.mul_comm]

/-- Settles O3: the flag bits alone select the operation. -/
theorem everyTokenAndAccessIsLegal : Obligations.EveryTokenAndAccessIsLegal :=
  fun st vid x a => ⟨decode_te_byte st vid x, decode_te_end st vid x, decode_td_byte st vid x, decode_td_end st vid x,
    decode_cr_write st vid a x, decode_cr_read st vid a x, by simp [Token.bits_toNat], rfl, rfl⟩

/-- Settles O4, by evaluating the decoder on each word. -/
theorem writtenOutWordsDecode : Obligations.WrittenOutWordsDecode :=
  ⟨rfl, rfl, rfl, rfl, rfl, rfl, rfl, rfl, rfl, rfl⟩

/-! ### The wire symbols (`30_encoding.md` R60) -/

theorem decodeWire_sox (vid : Vid) : decodeWire .hdr0 vid Config.sox = .wSox := rfl

theorem decodeWire_bad0 (vid : Vid) {g : Byte} (h : g ≠ Config.sox) : decodeWire .hdr0 vid g = .wBad0 g := if_neg h

theorem decodeWire_vid (vid : Vid) : decodeWire .hdr1 vid (vidByte vid) = .wVid vid := by
  have hv : (vidByte vid).setWidth 7 = vid := by
    rw [vidByte, BitVec.setWidth_setWidth_of_le _ (by decide), BitVec.setWidth_eq]
  rw [decodeWire, if_pos (show vidByte vid = vid.setWidth 8 from rfl), hv]

theorem decodeWire_badv {vid : Vid} {g : Byte} (h : g ≠ vidByte vid) : decodeWire .hdr1 vid g = .wBadv g := if_neg h

theorem decodeWire_eox (vid : Vid) : decodeWire .body vid Config.eox = .wEox := rfl

theorem decodeWire_grp (vid : Vid) {g : Byte} (h : g ≠ Config.eox) : decodeWire .body vid g = .wGrp g := if_neg h

theorem decodeWire_skip (vid : Vid) (g : Byte) : decodeWire .skip vid g = .wSkip := rfl

/-- The row of the map in `30_encoding.md` R60 for a wire symbol applies at a position to a byte. -/
def WireRow (st : DecSt) (vid : Vid) (g : Byte) (i : Instr) : Prop :=
  i.format = .w ∧ i.wf = true ∧ i.selectedAt st vid = true ∧ (i = .wSkip ∨ encode i = g.toNat)

theorem selectedAt_wVid {st : DecSt} {vid v : Vid} :
    (Instr.wVid v).selectedAt st vid = true ↔ st = .hdr1 ∧ v = vid := by
  simp [Instr.selectedAt]

theorem selectedAt_wBadv {st : DecSt} {vid : Vid} {g : Byte} :
    (Instr.wBadv g).selectedAt st vid = true ↔ st = .hdr1 ∧ g ≠ vidByte vid := by
  simp [Instr.selectedAt, vidByte]

theorem decodeWire_row (st : DecSt) (vid : Vid) (g : Byte) : WireRow st vid g (decodeWire st vid g) := by
  cases st with
  | hdr0 =>
    by_cases h : g = Config.sox
    · rw [h, decodeWire_sox]; exact ⟨rfl, rfl, rfl, .inr rfl⟩
    · rw [decodeWire_bad0 vid h]; exact ⟨rfl, bne_iff_ne.2 h, rfl, .inr rfl⟩
  | hdr1 =>
    by_cases h : g = vidByte vid
    · rw [h, decodeWire_vid]; exact ⟨rfl, rfl, selectedAt_wVid.2 ⟨rfl, rfl⟩, .inr (vidByte_toNat vid).symm⟩
    · rw [decodeWire_badv h]; exact ⟨rfl, rfl, selectedAt_wBadv.2 ⟨rfl, h⟩, .inr rfl⟩
  | body =>
    by_cases h : g = Config.eox
    · rw [h, decodeWire_eox]; exact ⟨rfl, rfl, rfl, .inr rfl⟩
    · rw [decodeWire_grp vid h]; exact ⟨rfl, bne_iff_ne.2 h, rfl, .inr rfl⟩
  | skip => rw [decodeWire_skip]; exact ⟨rfl, rfl, rfl, .inl rfl⟩

theorem decodeWire_of_row {st : DecSt} {vid : Vid} {g : Byte} {i : Instr} (h : WireRow st vid g i) :
    decodeWire st vid g = i := by
  obtain ⟨hformat, hwf, hsel, henc⟩ := h
  cases i with
  | wSkip =>
    obtain rfl : st = .skip := eq_of_beq hsel
    exact decodeWire_skip vid g
  | wSox =>
    obtain rfl : st = .hdr0 := eq_of_beq hsel
    obtain rfl : Config.sox = g := BitVec.eq_of_toNat_eq (henc.resolve_left nofun)
    exact decodeWire_sox vid
  | wBad0 x =>
    obtain rfl : st = .hdr0 := eq_of_beq hsel
    obtain rfl : x = g := BitVec.eq_of_toNat_eq (henc.resolve_left nofun)
    exact decodeWire_bad0 vid (bne_iff_ne.1 hwf)
  | wVid v =>
    obtain ⟨rfl, rfl⟩ := selectedAt_wVid.1 hsel
    obtain rfl : vidByte v = g := BitVec.eq_of_toNat_eq ((vidByte_toNat v).trans (henc.resolve_left nofun))
    exact decodeWire_vid v
  | wBadv x =>
    obtain ⟨rfl, hx⟩ := selectedAt_wBadv.1 hsel
    obtain rfl : x = g := BitVec.eq_of_toNat_eq (henc.resolve_left nofun)
    exact decodeWire_badv hx
  | wEox =>
    obtain rfl : st = .body := eq_of_beq hsel
    obtain rfl : Config.eox = g := BitVec.eq_of_toNat_eq (henc.resolve_left nofun)
    exact decodeWire_eox vid
  | wGrp x =>
    obtain rfl : st = .body := eq_of_beq hsel
    obtain rfl : x = g := BitVec.eq_of_toNat_eq (henc.resolve_left nofun)
    exact decodeWire_grp vid (bne_iff_ne.1 hwf)
  | _ => cases hformat

/-- Settles O2: the row of the decoded symbol applies, and a symbol whose row applies is the decoded one. -/
theorem wireByteIsExactlyOneSymbol : Obligations.WireByteIsExactlyOneSymbol :=
  fun st vid g _ => ⟨fun h => h ▸ decodeWire_row st vid g, decodeWire_of_row⟩

theorem encode_lt_of_wire {i : Instr} (h : i.format = .w) : encode i < 256 := by
  cases i with
  | wSox => exact Laws.EncodeMatchesRow.wSox.1
  | wBad0 g => exact (Laws.EncodeMatchesRow.wBad0 g).1
  | wVid v => exact (Laws.EncodeMatchesRow.wVid v).1
  | wBadv g => exact (Laws.EncodeMatchesRow.wBadv g).1
  | wEox => exact Laws.EncodeMatchesRow.wEox.1
  | wGrp g => exact (Laws.EncodeMatchesRow.wGrp g).1
  | wSkip => exact Laws.EncodeMatchesRow.wSkip.1
  | _ => cases h

/-- A wire symbol's own encoding is a byte its row applies to. -/
theorem decode_encode_wire {st : DecSt} {vid : Vid} {i : Instr} (hformat : i.format = .w) (hwf : i.wf = true)
    (hsel : i.selectedAt st vid = true) : decode st vid .w (encode i) = .ok i := by
  have hlt := encode_lt_of_wire hformat
  have hrow : WireRow st vid (BitVec.ofNat 8 (encode i)) i :=
    ⟨hformat, hwf, hsel, .inr (by rw [BitVec.toNat_ofNat, Nat.mod_eq_of_lt hlt])⟩
  rw [decode_w hlt, decodeWire_of_row hrow]

/-! ### The encodings of the lines of a script (`30_encoding.md` R65) -/

theorem encode_cfgWr (a : CfgAddr) (x : Byte) : encode (.cfgWr a x) = 512 + 256 * a.bit + x.toNat := by
  rw [encode, Nat.mul_comm]

/-- The data bits of a read are encoded as 0 (log 19). -/
theorem encode_cfgRd (a : CfgAddr) : encode (.cfgRd a) = 256 * a.bit + (0 : Byte).toNat := Nat.mul_comm _ _

/-- Settles O1: the tokens and accesses by their flag bits, the wire symbols by their rows. -/
theorem decodeOfEncodeIsTheInstruction : Obligations.DecodeOfEncodeIsTheInstruction := by
  intro st vid i hwf hsel
  cases i with
  | eByte x => exact decode_te_byte st vid x
  | eEop => exact decode_te_end st vid 0
  | dByte x => exact decode_td_byte st vid x
  | dEom => exact decode_td_end st vid 0
  | cfgWr a x => rw [encode_cfgWr]; exact decode_cr_write st vid a x
  | cfgRd a => rw [encode_cfgRd]; exact decode_cr_read st vid a 0
  | reset => rfl
  | _ => exact decode_encode_wire rfl hwf hsel

/-! ### A script placed on the ports (`30_encoding.md` R65, log 7) -/

/-- The tokens a line supplies on `enc_in`. -/
def lineEncIn : Instr → List InToken
  | .eByte d => [BitVec.ofNat 9 (encode (.eByte d))]
  | .eEop => [BitVec.ofNat 9 (encode .eEop)]
  | _ => []

/-- The tokens a line supplies on `dec_in`. -/
def lineDecIn : Instr → List InToken
  | .dByte g => [BitVec.ofNat 9 (encode (.dByte g))]
  | .dEom => [BitVec.ofNat 9 (encode .dEom)]
  | _ => []

/-- The turns a line schedules. -/
def lineTurns : Instr → List Turn
  | .eByte _ | .eEop => [.enc]
  | .dByte _ | .dEom => [.dec]
  | .cfgWr a d => [.cfg (BitVec.ofNat 10 (encode (.cfgWr a d)))]
  | .cfgRd a => [.cfg (BitVec.ofNat 10 (encode (.cfgRd a)))]
  | .reset => [.rst]
  | _ => []

theorem State.loadLine_eq (s : State) (i : Instr) :
    s.loadLine i = { s with encIn := s.encIn ++ lineEncIn i, decIn := s.decIn ++ lineDecIn i,
                            turns := s.turns ++ lineTurns i } := by
  cases i <;> simp [State.loadLine, lineEncIn, lineDecIn, lineTurns]

theorem State.loadScript_eq (s : State) (is : List Instr) :
    s.loadScript is = { s with encIn := s.encIn ++ is.flatMap lineEncIn, decIn := s.decIn ++ is.flatMap lineDecIn,
                               turns := s.turns ++ is.flatMap lineTurns } := by
  induction is generalizing s with
  | nil => simp [State.loadScript]
  | cons i is ih =>
    rw [show s.loadScript (i :: is) = (s.loadLine i).loadScript is from rfl, ih, State.loadLine_eq]
    simp

/-- No operation takes or schedules anything by itself: its token is taken before it runs. -/
theorem exec_ports {i : Instr} {s t : State} (h : exec i s = .next t) :
    t.encIn = s.encIn ∧ t.decIn = s.decIn ∧ t.turns = s.turns := by
  cases i with
  | cfgWr a d => cases a <;> (cases h; exact ⟨rfl, rfl, rfl⟩)
  | _ => cases h; exact ⟨rfl, rfl, rfl⟩

/-- What an operation does does not depend on what waits behind it. -/
theorem exec_loadScript {i : Instr} {s t : State} (h : exec i s = .next t) (is : List Instr) :
    exec i (s.loadScript is) = .next (t.loadScript is) := by
  simp only [State.loadScript_eq]
  cases i with
  | cfgWr a d => cases a <;> (cases h; rfl)
  | _ => cases h; rfl

theorem fetch_enc_turn {s : State} {ts : List Turn} {w : InToken} {ws : List InToken} {i : Instr}
    (ht : s.turns = .enc :: ts) (hw : s.encIn = w :: ws) (hi : decodeEnc w = i) :
    fetch s = .run i { s with turns := ts, encIn := ws } := by
  rw [← hi]; exact (fetch_turn ht).trans (fetchEnc_token hw)

theorem fetch_dec_turn {s : State} {ts : List Turn} {w : InToken} {ws : List InToken} {i : Instr}
    (ht : s.turns = .dec :: ts) (hw : s.decIn = w :: ws) (hi : decodeDec w = i) :
    fetch s = .run i { s with turns := ts, decIn := ws } := by
  rw [← hi]; exact (fetch_turn ht).trans (fetchDec_token hw)

theorem fetch_cfg_turn {s : State} {ts : List Turn} {x : Access} {i : Instr} (ht : s.turns = .cfg x :: ts)
    (hi : decodeCfg x = i) : fetch s = .run i { s with turns := ts } := by
  rw [← hi]; exact fetch_turn ht

/-- The first line of a script placed on empty ports is what the next step runs, with the rest of the script left. -/
theorem fetch_loadScript_cons {i : Instr} (hi : i.isLine = true) (is : List Instr) {s : State} (ht : s.turns = [])
    (he : s.encIn = []) (hd : s.decIn = []) : fetch (s.loadScript (i :: is)) = .run i (s.loadScript is) := by
  simp only [State.loadScript_eq, ht, he, hd, List.nil_append, List.flatMap_cons]
  cases i with
  | eByte x => exact fetch_enc_turn rfl rfl (decodeEnc_byte x)
  | eEop => exact fetch_enc_turn rfl rfl (decodeEnc_end 0)
  | dByte x => exact fetch_dec_turn rfl rfl (decodeDec_byte x)
  | dEom => exact fetch_dec_turn rfl rfl (decodeDec_end 0)
  | cfgWr a x => exact fetch_cfg_turn rfl (by rw [encode_cfgWr, decodeCfg_write])
  | cfgRd a => exact fetch_cfg_turn rfl (by rw [encode_cfgRd, decodeCfg_read])
  | reset => exact (fetch_turn rfl).trans rfl
  | _ => cases hi

/-- Settles O8, by induction on the script: a step takes its first line and leaves the rest placed. -/
theorem placedScriptRunsLineByLine : Obligations.PlacedScriptRunsLineByLine := by
  intro is
  induction is with
  | nil => exact fun s _ _ _ _ => rfl
  | cons i is ih =>
    intro s hline ht he hd
    obtain ⟨hi, his⟩ := List.forall_mem_cons.1 hline
    obtain ⟨u, hu⟩ := exec_total i s
    obtain ⟨he', hd', ht'⟩ := exec_ports hu
    have hstep : step (s.loadScript (i :: is)) = .next (u.loadScript is) :=
      (step_run (fetch_loadScript_cons hi is ht he hd)).trans (exec_loadScript hu is)
    rw [List.length_cons, runSteps_succ_next hstep, runScript_cons_next hu]
    exact ih u his (ht'.trans ht) (he'.trans he) (hd'.trans hd)

/-! ### Byte sequences as big numbers (`30_encoding.md` R58, R59) -/

/-- A byte sequence as one big number with digits of `w` bits, the first byte highest. -/
def bigNat (w : Nat) : List Byte → Nat
  | [] => 0
  | x :: xs => x.toNat * 2 ^ (w * xs.length) + bigNat w xs

theorem bigNat_singleton (w : Nat) (x : Byte) : bigNat w [x] = x.toNat := by simp [bigNat]

theorem bytesNat_eq_bigNat (b : List Byte) : Codec.bytesNat b = bigNat 8 b := by
  induction b with
  | nil => rfl
  | cons x xs ih => rw [Codec.bytesNat, bigNat, ih]

theorem groupsNat_eq_bigNat (g : List Byte) : Codec.groupsNat g = bigNat 7 g := by
  induction g with
  | nil => rfl
  | cons x xs ih => rw [Codec.groupsNat, bigNat, ih]

theorem bigNat_append (w : Nat) (xs ys : List Byte) :
    bigNat w (xs ++ ys) = bigNat w xs * 2 ^ (w * ys.length) + bigNat w ys := by
  induction xs with
  | nil => simp [bigNat]
  | cons x xs ih =>
    rw [List.cons_append, bigNat, bigNat, ih, List.length_append, Nat.mul_add, Nat.pow_add]; ring

theorem bigNat_lt {w : Nat} {xs : List Byte} (h : ∀ x ∈ xs, x.toNat < 2 ^ w) : bigNat w xs < 2 ^ (w * xs.length) := by
  induction xs with
  | nil => simp [bigNat]
  | cons x xs ih =>
    obtain ⟨hx, hxs⟩ := List.forall_mem_cons.1 h
    calc bigNat w (x :: xs)
      _ < x.toNat * 2 ^ (w * xs.length) + 2 ^ (w * xs.length) := Nat.add_lt_add_left (ih hxs) _
      _ = (x.toNat + 1) * 2 ^ (w * xs.length) := by ring
      _ ≤ 2 ^ w * 2 ^ (w * xs.length) := Nat.mul_le_mul_right _ hx
      _ = 2 ^ (w * (x :: xs).length) := by rw [List.length_cons, Nat.mul_succ, Nat.pow_add, Nat.mul_comm]

/-- The digits of the big number are the bytes. -/
theorem getElem?_eq_digit {w : Nat} {xs : List Byte} (h : ∀ x ∈ xs, x.toNat < 2 ^ w) {j : Nat} (hj : j < xs.length) :
    (xs[j]?).map BitVec.toNat = some (bigNat w xs / 2 ^ (w * (xs.length - 1 - j)) % 2 ^ w) := by
  induction xs generalizing j with
  | nil => cases hj
  | cons x xs ih =>
    obtain ⟨hx, hxs⟩ := List.forall_mem_cons.1 h
    cases j with
    | zero =>
      have hdiv : bigNat w (x :: xs) / 2 ^ (w * xs.length) = x.toNat := by
        rw [bigNat, Nat.add_comm, Nat.add_mul_div_right _ _ (by positivity), Nat.div_eq_of_lt (bigNat_lt hxs),
          Nat.zero_add]
      simp [hdiv, Nat.mod_eq_of_lt hx]
    | succ j =>
      obtain ⟨k, hk⟩ := Nat.exists_eq_add_of_lt (Nat.lt_of_succ_lt_succ hj)
      have hhigh : x.toNat * 2 ^ (w * xs.length) = x.toNat * 2 ^ (w * j) * 2 ^ w * 2 ^ (w * k) := by rw [hk]; ring
      rw [List.getElem?_cons_succ, ih hxs (by omega), List.length_cons, bigNat, hhigh, Nat.add_comm,
        show xs.length - 1 - j = k by omega, show xs.length + 1 - 1 - (j + 1) = k by omega,
        Nat.add_mul_div_right _ _ (by positivity), Nat.add_mul_mod_self_right]

/-! ### Packing: the closed form (`30_encoding.md` R58) -/

/-- What a width-`w` digit shifted in makes of the pending bits. -/
theorem shiftLeft_or_eq {r x w : Nat} (hx : x < 2 ^ w) : r <<< w ||| x = r * 2 ^ w + x := by
  rw [← Nat.shiftLeft_add_eq_or_of_lt hx, Nat.shiftLeft_eq]

theorem shiftLeft_or_lt {r x c w : Nat} (hr : r < 2 ^ c) (hx : x < 2 ^ w) : r <<< w ||| x < 2 ^ (c + w) :=
  Nat.or_lt_two_pow (Nat.shiftLeft_lt hr) (hx.trans_le (Nat.pow_le_pow_right (by decide) (Nat.le_add_left w c)))

theorem ofNat_and_127_toNat (n : Nat) : (BitVec.ofNat 8 (n &&& 0x7F)).toNat = n % 2 ^ 7 := by
  rw [and_127, BitVec.toNat_ofNat]; omega

theorem ofNat_and_127_lt (n : Nat) : (BitVec.ofNat 8 (n &&& 0x7F)).toNat < 2 ^ 7 := by
  rw [ofNat_and_127_toNat]; exact Nat.mod_lt _ (by positivity)

/-- The inner loop of `pack_bin` turns seven bits into a group until fewer than seven are left. -/
theorem packDrain_count (n r c : Nat) (h : c < 7 * n + 7) :
    7 * (Codec.packDrain n r c).1.length + (Codec.packDrain n r c).2.2 = c ∧ (Codec.packDrain n r c).2.2 < 7 := by
  induction n generalizing r c with
  | zero => exact ⟨Nat.zero_add c, h⟩
  | succ n ih =>
    by_cases hc : 7 ≤ c
    · obtain ⟨hlen, hlt⟩ := ih (r % 2 ^ (c - 7)) (c - 7) (by omega)
      rw [Codec.packDrain, if_pos hc]
      exact ⟨by simp only [List.length_cons]; omega, hlt⟩
    · rw [packDrain_stop _ _ _ (by omega)]
      exact ⟨Nat.zero_add c, by simp only; omega⟩

/-- The groups emitted and the bits left are the pending bits, none lost. -/
theorem packDrain_value (n r c : Nat) (h : c < 7 * n + 7) (hr : r < 2 ^ c) :
    bigNat 7 (Codec.packDrain n r c).1 * 2 ^ (Codec.packDrain n r c).2.2 + (Codec.packDrain n r c).2.1 = r ∧
      (Codec.packDrain n r c).2.1 < 2 ^ (Codec.packDrain n r c).2.2 := by
  induction n generalizing r c with
  | zero => exact ⟨by simp [Codec.packDrain, bigNat], hr⟩
  | succ n ih =>
    by_cases hc : 7 ≤ c
    · obtain ⟨hval, hlt⟩ := ih (r % 2 ^ (c - 7)) (c - 7) (by omega) (Nat.mod_lt _ (by positivity))
      obtain ⟨hlen, -⟩ := packDrain_count n (r % 2 ^ (c - 7)) (c - 7) (by omega)
      have htop : r / 2 ^ (c - 7) < 2 ^ 7 := by
        rw [Nat.div_lt_iff_lt_mul (by positivity), ← Nat.pow_add]
        rwa [show 7 + (c - 7) = c by omega]
      have hg : (BitVec.ofNat 8 ((r >>> (c - 7)) &&& 0x7F)).toNat = r / 2 ^ (c - 7) := by
        rw [ofNat_and_127_toNat, Nat.shiftRight_eq_div_pow, Nat.mod_eq_of_lt htop]
      rw [Codec.packDrain, if_pos hc]
      refine ⟨?_, hlt⟩
      simp only [bigNat, hg]
      generalize Codec.packDrain n (r % 2 ^ (c - 7)) (c - 7) = x at hval hlen ⊢
      calc (r / 2 ^ (c - 7) * 2 ^ (7 * x.1.length) + bigNat 7 x.1) * 2 ^ x.2.2 + x.2.1
        _ = r / 2 ^ (c - 7) * 2 ^ (7 * x.1.length + x.2.2) + (bigNat 7 x.1 * 2 ^ x.2.2 + x.2.1) := by
          rw [Nat.pow_add]; ring
        _ = r := by rw [hlen, hval, Nat.div_add_mod']
    · rw [packDrain_stop _ _ _ (by omega)]
      exact ⟨by simp [bigNat], hr⟩

theorem packDrain_lt (n r c : Nat) : ∀ g ∈ (Codec.packDrain n r c).1, g.toNat < 2 ^ 7 := by
  induction n generalizing r c with
  | zero => simp [Codec.packDrain]
  | succ n ih =>
    rw [Codec.packDrain]
    split
    · exact List.forall_mem_cons.2 ⟨ofNat_and_127_lt _, ih _ _⟩
    · simp

theorem packFrom_lt (r c : Nat) (b : List Byte) : ∀ g ∈ Codec.packFrom r c b, g.toNat < 2 ^ 7 := by
  induction b generalizing r c with
  | nil =>
    rw [Codec.packFrom]
    split
    · exact List.forall_mem_singleton.2 (ofNat_and_127_lt _)
    · simp
  | cons x xs ih => exact List.forall_mem_append.2 ⟨packDrain_lt _ _ _, ih _ _⟩

theorem packFrom_length (r c : Nat) (b : List Byte) (hc : c < 7) :
    (Codec.packFrom r c b).length = (c + 8 * b.length + 6) / 7 := by
  induction b generalizing r c with
  | nil =>
    rw [Codec.packFrom]
    split <;> (simp only [List.length_cons, List.length_nil]; omega)
  | cons x xs ih =>
    obtain ⟨hlen, hlt⟩ := packDrain_count (c + 8) ((r <<< 8) ||| x.toNat) (c + 8) (by omega)
    rw [Codec.packFrom, List.length_append, ih _ _ hlt, List.length_cons]
    omega

/-- The body is the pending bits followed by the bytes, padded with zeros on the right to whole groups. -/
theorem packFrom_value {r c pad : Nat} {b : List Byte} (hc : c < 7) (hr : r < 2 ^ c)
    (hpad : 7 * (Codec.packFrom r c b).length = c + 8 * b.length + pad) :
    bigNat 7 (Codec.packFrom r c b) = (r * 2 ^ (8 * b.length) + bigNat 8 b) * 2 ^ pad := by
  induction b generalizing r c with
  | nil =>
    rw [Codec.packFrom] at hpad ⊢
    split at hpad
    next h0 =>
      obtain rfl : pad = 7 - c := by simp only [List.length_cons, List.length_nil] at hpad; omega
      have hlt : r * 2 ^ (7 - c) < 2 ^ 7 := by
        have := Nat.shiftLeft_lt (m := 7 - c) hr
        rwa [show c + (7 - c) = 7 by omega, Nat.shiftLeft_eq] at this
      rw [if_pos h0, bigNat_singleton, ofNat_and_127_toNat, Nat.shiftLeft_eq, Nat.mod_eq_of_lt hlt]
      simp [bigNat]
    next h0 =>
      obtain rfl : c = 0 := by omega
      obtain rfl : r = 0 := by simpa using hr
      simp [bigNat]
  | cons x xs ih =>
    have hR := shiftLeft_or_eq (r := r) x.isLt
    obtain ⟨hcount, hclt⟩ := packDrain_count (c + 8) (r <<< 8 ||| x.toNat) (c + 8) (by omega)
    obtain ⟨hval, hrlt⟩ := packDrain_value (c + 8) (r <<< 8 ||| x.toNat) (c + 8) (by omega) (shiftLeft_or_lt hr x.isLt)
    rw [Codec.packFrom] at hpad ⊢
    generalize Codec.packDrain (c + 8) (r <<< 8 ||| x.toNat) (c + 8) = y at *
    rw [List.length_append, List.length_cons] at hpad
    have hrest : 7 * (Codec.packFrom y.2.1 y.2.2 xs).length = y.2.2 + 8 * xs.length + pad := by omega
    calc bigNat 7 (y.1 ++ Codec.packFrom y.2.1 y.2.2 xs)
      _ = bigNat 7 y.1 * 2 ^ (y.2.2 + 8 * xs.length + pad) + (y.2.1 * 2 ^ (8 * xs.length) + bigNat 8 xs) * 2 ^ pad := by
        rw [bigNat_append, ih hclt hrlt hrest, hrest]
      _ = ((bigNat 7 y.1 * 2 ^ y.2.2 + y.2.1) * 2 ^ (8 * xs.length) + bigNat 8 xs) * 2 ^ pad := by ring
      _ = (r * 2 ^ (8 * (x :: xs).length) + bigNat 8 (x :: xs)) * 2 ^ pad := by
        rw [hval, hR, List.length_cons, bigNat]; ring

theorem packBin_length (b : List Byte) : (Codec.packBin b).length = (8 * b.length + 6) / 7 := by
  rw [Codec.packBin, packFrom_length 0 0 b (by decide), Nat.zero_add]

theorem packBin_value (b : List Byte) :
    bigNat 7 (Codec.packBin b) = bigNat 8 b * 2 ^ (7 * ((8 * b.length + 6) / 7) - 8 * b.length) := by
  have hval := packFrom_value (r := 0) (c := 0) (b := b) (pad := 7 * ((8 * b.length + 6) / 7) - 8 * b.length)
    (by decide) (by decide) (by rw [packFrom_length 0 0 b (by decide)]; omega)
  rwa [Nat.zero_mul, Nat.zero_add] at hval

/-- Settles O47: the groups are the digits of the padded number. -/
theorem packedBodyClosedForm : Obligations.PackedBodyClosedForm := by
  intro b
  refine ⟨packBin_length b, fun j hj => ?_⟩
  rw [← packBin_length] at hj
  rw [bytesNat_eq_bigNat, ← packBin_value, ← packBin_length]
  exact getElem?_eq_digit (packFrom_lt 0 0 b) hj

/-! ### Unpacking: the closed form (`30_encoding.md` R59) -/

theorem ofNat_and_255_toNat (n : Nat) : (BitVec.ofNat 8 (n &&& 0xFF)).toNat = n % 2 ^ 8 := by
  rw [and_255, BitVec.toNat_ofNat]; omega

/-- The inner loop of `unpack_bin` turns eight bits into a byte until fewer than eight are left. -/
theorem unpackDrain_count (n r c : Nat) (h : c < 8 * n + 8) :
    8 * (Codec.unpackDrain n r c).1.length + (Codec.unpackDrain n r c).2 = c ∧ (Codec.unpackDrain n r c).2 < 8 := by
  induction n generalizing c with
  | zero => exact ⟨Nat.zero_add c, h⟩
  | succ n ih =>
    by_cases hc : 8 ≤ c
    · obtain ⟨hlen, hlt⟩ := ih (c - 8) (by omega)
      rw [Codec.unpackDrain, if_pos hc]
      exact ⟨by simp only [List.length_cons]; omega, hlt⟩
    · rw [unpackDrain_stop _ _ _ (by omega)]
      exact ⟨Nat.zero_add c, by simp only; omega⟩

/-- The bytes emitted and the bits left are the pending bits, none lost. -/
theorem unpackDrain_value (n r c : Nat) (h : c < 8 * n + 8) :
    bigNat 8 (Codec.unpackDrain n r c).1 * 2 ^ (Codec.unpackDrain n r c).2 + r % 2 ^ (Codec.unpackDrain n r c).2 =
      r % 2 ^ c := by
  induction n generalizing c with
  | zero => simp [Codec.unpackDrain, bigNat]
  | succ n ih =>
    by_cases hc : 8 ≤ c
    · have hval := ih (c - 8) (by omega)
      obtain ⟨hlen, -⟩ := unpackDrain_count n r (c - 8) (by omega)
      rw [Codec.unpackDrain, if_pos hc]
      simp only [bigNat, ofNat_and_255_toNat, Nat.shiftRight_eq_div_pow]
      generalize Codec.unpackDrain n r (c - 8) = x at hval hlen ⊢
      calc (r / 2 ^ (c - 8) % 2 ^ 8 * 2 ^ (8 * x.1.length) + bigNat 8 x.1) * 2 ^ x.2 + r % 2 ^ x.2
        _ = r / 2 ^ (c - 8) % 2 ^ 8 * 2 ^ (8 * x.1.length + x.2) + (bigNat 8 x.1 * 2 ^ x.2 + r % 2 ^ x.2) := by
          rw [Nat.pow_add]; ring
        _ = r % 2 ^ (c - 8) + 2 ^ (c - 8) * (r / 2 ^ (c - 8) % 2 ^ 8) := by rw [hlen, hval]; ring
        _ = r % 2 ^ c := by rw [← Nat.mod_mul, ← Nat.pow_add, Nat.sub_add_cancel hc]
    · rw [unpackDrain_stop _ _ _ (by omega)]
      simp [bigNat]

theorem unpackFrom_length (r c : Nat) (g : List Byte) (hc : c < 8) :
    (Codec.unpackFrom r c g).length = (c + 7 * g.length) / 8 := by
  induction g generalizing r c with
  | nil => rw [Codec.unpackFrom, List.length_nil]; omega
  | cons x xs ih =>
    obtain ⟨hlen, hlt⟩ := unpackDrain_count (c + 7) ((r <<< 7) ||| x.toNat) (c + 7) (by omega)
    rw [Codec.unpackFrom, List.length_append, ih _ _ hlt, List.length_cons]
    omega

/-- The payload is the pending bits followed by the groups, less the last bits that fill no byte. -/
theorem unpackFrom_value {r c left : Nat} {g : List Byte} (hc : c < 8) (hr : r < 2 ^ c) (hg : ∀ x ∈ g, x.toNat < 2 ^ 7)
    (hleft : c + 7 * g.length = 8 * (Codec.unpackFrom r c g).length + left) :
    bigNat 8 (Codec.unpackFrom r c g) = (r * 2 ^ (7 * g.length) + bigNat 7 g) / 2 ^ left := by
  induction g generalizing r c with
  | nil =>
    obtain rfl : c = left := by simpa [Codec.unpackFrom] using hleft
    simp [Codec.unpackFrom, bigNat, Nat.div_eq_of_lt hr]
  | cons x xs ih =>
    obtain ⟨hx, hxs⟩ := List.forall_mem_cons.1 hg
    have hR := shiftLeft_or_eq (r := r) hx
    have hRlt := shiftLeft_or_lt hr hx
    obtain ⟨hcount, hclt⟩ := unpackDrain_count (c + 7) (r <<< 7 ||| x.toNat) (c + 7) (by omega)
    have hval := unpackDrain_value (c + 7) (r <<< 7 ||| x.toNat) (c + 7) (by omega)
    rw [Nat.mod_eq_of_lt hRlt] at hval
    rw [Codec.unpackFrom] at hleft ⊢
    generalize r <<< 7 ||| x.toNat = R at *
    generalize Codec.unpackDrain (c + 7) R (c + 7) = y at *
    rw [List.length_append, List.length_cons] at hleft
    have hrest : y.2 + 7 * xs.length = 8 * (Codec.unpackFrom (R % 2 ^ y.2) y.2 xs).length + left := by omega
    have ih := ih hclt (Nat.mod_lt _ (by positivity)) hxs hrest
    generalize Codec.unpackFrom (R % 2 ^ y.2) y.2 xs = p at *
    calc bigNat 8 (y.1 ++ p)
      _ = (R % 2 ^ y.2 * 2 ^ (7 * xs.length) + bigNat 7 xs) / 2 ^ left + bigNat 8 y.1 * 2 ^ (8 * p.length) := by
        rw [bigNat_append, ih, Nat.add_comm]
      _ = (R % 2 ^ y.2 * 2 ^ (7 * xs.length) + bigNat 7 xs + bigNat 8 y.1 * 2 ^ (8 * p.length) * 2 ^ left) / 2 ^ left :=
        (Nat.add_mul_div_right _ _ (by positivity)).symm
      _ = ((bigNat 8 y.1 * 2 ^ y.2 + R % 2 ^ y.2) * 2 ^ (7 * xs.length) + bigNat 7 xs) / 2 ^ left := by
        rw [Nat.mul_assoc, ← Nat.pow_add, ← hrest, Nat.pow_add]; congr 1; ring
      _ = (r * 2 ^ (7 * (x :: xs).length) + bigNat 7 (x :: xs)) / 2 ^ left := by
        rw [hval, hR, List.length_cons, bigNat]; congr 1; ring

theorem unpackBin_length (g : List Byte) : (Codec.unpackBin g).length = 7 * g.length / 8 := by
  rw [Codec.unpackBin, unpackFrom_length 0 0 g (by decide), Nat.zero_add]

theorem unpackBin_value {g : List Byte} (hg : ∀ x ∈ g, x.toNat < 2 ^ 7) :
    bigNat 8 (Codec.unpackBin g) = bigNat 7 g / 2 ^ (7 * g.length - 8 * (7 * g.length / 8)) := by
  have hval := unpackFrom_value (r := 0) (c := 0) (left := 7 * g.length - 8 * (7 * g.length / 8))
    (by decide) (by decide) hg (by rw [unpackFrom_length 0 0 g (by decide)]; omega)
  rwa [Nat.zero_mul, Nat.zero_add] at hval

/-- Settles O48: the bytes are the digits of the shifted number. -/
theorem unpackedPayloadClosedForm : Obligations.UnpackedPayloadClosedForm := by
  intro g hg
  refine ⟨unpackBin_length g, fun i hi => ?_⟩
  rw [← unpackBin_length] at hi
  rw [groupsNat_eq_bigNat, ← unpackBin_value hg, ← unpackBin_length]
  exact getElem?_eq_digit (fun x _ => x.isLt) hi

end Sys2Proof.Machine

/-! SUPPORT. The body bytes through a half one at a time, the bits an accumulator of any width reads, the round trips and
the stray bit 7: the proofs of the statements of `40_bitpack.md`. -/

namespace Sys2Proof.Machine

/-! ### One body byte through a half (`40_bitpack.md` R71, R73, R75, R77) -/

theorem mask7_eq_ofNat (b : Byte) : mask7 b = BitVec.ofNat 8 (b.toNat % 128) := by
  apply BitVec.eq_of_toNat_eq
  rw [mask7_toNat, BitVec.toNat_ofNat]; omega

theorem encByte_body (b : Byte) {e : EncRegs} (h : e.st = .body) : encByte b e = encAbsorb b e := by
  simp only [encByte, h]

/-- In BODY every byte but the terminator is a group (`42_frame_decode.md` R100, R106). -/
theorem exec_dByte_eq_wGrp {g : Byte} {s : State} (hst : s.dec.st = .body) (hg : g.toNat ≠ 0xF7) :
    exec (.dByte g) s = exec (.wGrp g) s := by
  have hne : g ≠ Config.eox := fun he => hg (by rw [he]; rfl)
  rw [exec_dByte, exec_wGrp, State.applyDec, State.applyDec, decByte_body g hst, if_neg hne, decGrp_eq]

/-- Settles O12: PACK.B8 with fewer than six bits pending, and with six. -/
theorem binaryBytePacksOneOrTwoGroups : Obligations.BinaryBytePacksOneOrTwoGroups := by
  intro b s hinv hst hm
  obtain ⟨-, hr⟩ := hinv.pending
  have heff : encByte b s.enc = packB8 b s.enc := by rw [encByte_body b hst, encAbsorb_binary b hm]
  refine ⟨fun hc => ?_, fun hc => ?_⟩
  · rw [exec_eByte, State.applyEnc, heff, packB8_one b s.enc hc hr]; rfl
  · rw [exec_eByte, State.applyEnc, heff, packB8_two b s.enc hc hr]; rfl

/-- Settles O25: UNPK.G7 with nothing pending, and with bits pending. -/
theorem binaryGroupUnpacksAtMostOneByte : Obligations.BinaryGroupUnpacksAtMostOneByte := by
  intro g s hinv hst hm hg
  obtain ⟨hc7, hr⟩ := hinv.pending
  have heff : decGrp g s.dec = unpkG7 g s.dec := by rw [decGrp_eq, decAbsorb_binary g hm]
  refine ⟨fun hc => ?_, fun hc => ?_, exec_dByte_eq_wGrp hst hg⟩
  · obtain ⟨hr0, hc0⟩ := pending_eq_zero hr hc
    rw [exec_wGrp, State.applyDec, heff, unpkG7_none g s.dec hc0 hr0]
    simp only [DecEff.quiet, List.append_nil]
  · rw [exec_wGrp, State.applyDec, heff, unpkG7_some g s.dec hc hc7 hr]
    simp only [Token.byte, List.append_nil]

/-- Settles O13: PACK.A has no register to change. -/
theorem asciiBytePassesSevenBits : Obligations.AsciiBytePassesSevenBits := by
  intro b s hst hm
  rw [exec_eByte, State.applyEnc, encByte_body b hst, encAbsorb_ascii b hm, packA, mask7_eq_ofNat]; rfl

/-- Settles O26: UNPK.A has no register to change. -/
theorem asciiBodyByteGivesSevenBits : Obligations.AsciiBodyByteGivesSevenBits := by
  intro g s hst hm hg
  have hgrp : exec (.wGrp g) s = .next { s with decOut := s.decOut ++ [⟨false, BitVec.ofNat 8 (g.toNat % 128)⟩] } := by
    rw [exec_wGrp, State.applyDec, decGrp_eq, decAbsorb_ascii g hm, unpkA, mask7_eq_ofNat]
    simp only [Token.byte, List.append_nil]
  exact ⟨hgrp, (exec_dByte_eq_wGrp hst hg).trans hgrp⟩

/-! ### The bits an accumulator of any width reads (`40_bitpack.md` R80) -/

/-- An accumulator of 14 bits or more keeps the bits below 14. -/
theorem fit_modEq {w : Option Nat} (hw : ∀ k, w = some k → 14 ≤ k) {c : Nat} (hc : c ≤ 14) (r : Nat) :
    Codec.fit w r ≡ r [MOD 2 ^ c] := by
  cases w with
  | none => rfl
  | some k => exact (Nat.mod_modEq r _).of_dvd (Nat.pow_dvd_pow 2 (hc.trans (hw k rfl)))

theorem discard_modEq (reduce : Bool) (r c : Nat) : Codec.discard reduce r c ≡ r [MOD 2 ^ c] := by
  cases reduce with
  | false => rfl
  | true => exact Nat.mod_modEq r _

/-- Fewer low bits agree where more do. -/
theorem modEq_two_pow_of_le {r r' c k : Nat} (h : r ≡ r' [MOD 2 ^ c]) (hk : k ≤ c) : r ≡ r' [MOD 2 ^ k] :=
  h.of_dvd (Nat.pow_dvd_pow 2 hk)

theorem shiftLeft_modEq {r r' c : Nat} (h : r ≡ r' [MOD 2 ^ c]) (k : Nat) : r <<< k ≡ r' <<< k [MOD 2 ^ (c + k)] := by
  rw [Nat.shiftLeft_eq, Nat.shiftLeft_eq, Nat.pow_add]
  exact h.mul_right' _

/-- Shifting `k` bits in below the pending ones keeps the agreement of the bits below the counter. -/
theorem shiftIn_modEq {r r' c : Nat} (h : r ≡ r' [MOD 2 ^ c]) (k x : Nat) :
    r <<< k ||| x ≡ r' <<< k ||| x [MOD 2 ^ (c + k)] := by
  have hshift : r <<< k % 2 ^ (c + k) = r' <<< k % 2 ^ (c + k) := shiftLeft_modEq h k
  rw [Nat.ModEq, Nat.or_mod_two_pow, hshift, ← Nat.or_mod_two_pow]

/-- An emission of the `n` highest of `c` pending bits reads bits below `c` only. -/
theorem shiftRight_mod_eq {r r' c n : Nat} (h : r ≡ r' [MOD 2 ^ c]) (hn : n ≤ c) :
    r >>> (c - n) % 2 ^ n = r' >>> (c - n) % 2 ^ n := by
  have hsplit : 2 ^ c = 2 ^ (c - n) * 2 ^ n := by rw [← Nat.pow_add, Nat.sub_add_cancel hn]
  rw [Nat.ModEq, hsplit] at h
  rw [Nat.shiftRight_eq_div_pow, Nat.shiftRight_eq_div_pow, ← Nat.mod_mul_right_div_self, h, Nat.mod_mul_right_div_self]

theorem shiftRight_and_127_eq {r r' c : Nat} (h : r ≡ r' [MOD 2 ^ c]) (hc : 7 ≤ c) :
    r >>> (c - 7) &&& 0x7F = r' >>> (c - 7) &&& 0x7F := by
  rw [and_127, and_127]; exact shiftRight_mod_eq h hc

theorem shiftRight_and_255_eq {r r' c : Nat} (h : r ≡ r' [MOD 2 ^ c]) (hc : 8 ≤ c) :
    r >>> (c - 8) &&& 0xFF = r' >>> (c - 8) &&& 0xFF := by
  rw [and_255, and_255]; exact shiftRight_mod_eq h hc

/-- Where the pending bits agree, the inner loops of `pack_bin` emit the same and their pending bits agree again. -/
theorem packDrainAny_eq (reduce : Bool) (n : Nat) {r r' c : Nat} (h : r ≡ r' [MOD 2 ^ c]) :
    (Codec.packDrainAny reduce n r c).1 = (Codec.packDrain n r' c).1 ∧
      (Codec.packDrainAny reduce n r c).2.2 = (Codec.packDrain n r' c).2.2 ∧
      (Codec.packDrainAny reduce n r c).2.1 ≡ (Codec.packDrain n r' c).2.1 [MOD 2 ^ (Codec.packDrain n r' c).2.2] := by
  induction n generalizing r r' c with
  | zero => exact ⟨rfl, rfl, h⟩
  | succ n ih =>
    rw [Codec.packDrainAny, Codec.packDrain]
    by_cases hc : 7 ≤ c
    · have hlow : Codec.discard reduce r (c - 7) ≡ r' % 2 ^ (c - 7) [MOD 2 ^ (c - 7)] :=
        ((discard_modEq reduce r _).trans (modEq_two_pow_of_le h (Nat.sub_le c 7))).trans (Nat.mod_modEq r' _).symm
      obtain ⟨hout, hcnt, hpend⟩ := ih hlow
      rw [if_pos hc, if_pos hc]
      exact ⟨congrArg₂ List.cons (by rw [shiftRight_and_127_eq h hc]) hout, hcnt, hpend⟩
    · rw [if_neg hc, if_neg hc]
      exact ⟨rfl, rfl, h⟩

theorem packAnyFrom_eq {w : Option Nat} (hw : ∀ k, w = some k → 14 ≤ k) (reduce : Bool) (b : List Byte) {r r' c : Nat}
    (hc : c < 7) (h : r ≡ r' [MOD 2 ^ c]) : Codec.packAnyFrom w reduce r c b = Codec.packFrom r' c b := by
  induction b generalizing r r' c with
  | nil =>
    have hpad : Codec.fit w (r <<< (7 - c)) ≡ r' <<< (7 - c) [MOD 2 ^ 7] := by
      have hshift := shiftLeft_modEq h (7 - c)
      rw [Nat.add_sub_cancel' hc.le] at hshift
      exact (fit_modEq hw (by decide) _).trans hshift
    rw [Codec.packAnyFrom, Codec.packFrom, and_127, and_127, show _ % 128 = _ % 128 from hpad]
  | cons x xs ih =>
    have hin : Codec.fit w (r <<< 8 ||| x.toNat) ≡ r' <<< 8 ||| x.toNat [MOD 2 ^ (c + 8)] :=
      (fit_modEq hw (by omega) _).trans (shiftIn_modEq h 8 x.toNat)
    obtain ⟨hout, hcnt, hpend⟩ := packDrainAny_eq reduce (c + 8) hin
    obtain ⟨-, hlt⟩ := packDrain_count (c + 8) (r' <<< 8 ||| x.toNat) (c + 8) (by omega)
    rw [Codec.packAnyFrom, Codec.packFrom, hout, hcnt, ih hlt hpend]

/-- The inner loop of `unpack_bin` reads bits below the counter only. -/
theorem unpackDrain_congr (n : Nat) {r r' c : Nat} (h : r ≡ r' [MOD 2 ^ c]) :
    Codec.unpackDrain n r c = Codec.unpackDrain n r' c := by
  induction n generalizing c with
  | zero => rfl
  | succ n ih =>
    rw [Codec.unpackDrain, Codec.unpackDrain]
    by_cases hc : 8 ≤ c
    · rw [if_pos hc, if_pos hc, ih (modEq_two_pow_of_le h (Nat.sub_le c 8)), shiftRight_and_255_eq h hc]
    · rw [if_neg hc, if_neg hc]

theorem unpackAnyFrom_eq {w : Option Nat} (hw : ∀ k, w = some k → 14 ≤ k) (reduce : Bool) (g : List Byte) {r r' c : Nat}
    (hc : c < 8) (h : r ≡ r' [MOD 2 ^ c]) : Codec.unpackAnyFrom w reduce r c g = Codec.unpackFrom r' c g := by
  induction g generalizing r r' c with
  | nil => rfl
  | cons x xs ih =>
    have hin : Codec.fit w (r <<< 7 ||| x.toNat) ≡ r' <<< 7 ||| x.toNat [MOD 2 ^ (c + 7)] :=
      (fit_modEq hw (by omega) _).trans (shiftIn_modEq h 7 x.toNat)
    obtain ⟨hcnt, hlt⟩ := unpackDrain_count (c + 7) (r' <<< 7 ||| x.toNat) (c + 7) (by omega)
    rw [Codec.unpackAnyFrom, Codec.unpackFrom, unpackDrain_congr (c + 7) hin]
    generalize Codec.unpackDrain (c + 7) (r' <<< 7 ||| x.toNat) (c + 7) = y at *
    have hpend : Codec.discard reduce (Codec.fit w (r <<< 7 ||| x.toNat)) y.2 ≡
        (r' <<< 7 ||| x.toNat) % 2 ^ y.2 [MOD 2 ^ y.2] :=
      ((discard_modEq reduce _ _).trans (modEq_two_pow_of_le hin (by omega))).trans (Nat.mod_modEq _ _).symm
    rw [ih hlt hpend]

/-- Settles O49: every output reads bits below the counter only, and those agree. -/
theorem anyWidthFromFourteenAgrees : Obligations.AnyWidthFromFourteenAgrees := by
  intro w reduce b hw
  exact ⟨packAnyFrom_eq hw reduce b (by decide) rfl, unpackAnyFrom_eq hw reduce b (by decide) rfl⟩

/-! ### Lengths, ranges and round trips (`40_bitpack.md` R81 to R85) -/

/-- Settles O50: the Binary lengths from the bit counts, the Ascii ones from `map`. -/
theorem bodyAndPayloadLengths : Obligations.BodyAndPayloadLengths := by
  intro b
  refine ⟨packBin_length b, unpackBin_length b, List.length_map _, List.length_map _, ?_⟩
  rw [packBin_length]; omega

/-- A digit sequence is determined by its length and its number. -/
theorem eq_of_bigNat_eq {w : Nat} {xs ys : List Byte} (hx : ∀ x ∈ xs, x.toNat < 2 ^ w) (hy : ∀ y ∈ ys, y.toNat < 2 ^ w)
    (hlen : xs.length = ys.length) (h : bigNat w xs = bigNat w ys) : xs = ys := by
  have hdigits : xs.map BitVec.toNat = ys.map BitVec.toNat := by
    refine List.ext_getElem? fun j => ?_
    rw [List.getElem?_map, List.getElem?_map]
    by_cases hj : j < xs.length
    · rw [getElem?_eq_digit hx hj, getElem?_eq_digit hy (hlen ▸ hj), h, hlen]
    · rw [List.getElem?_eq_none (by omega), List.getElem?_eq_none (by omega)]
  exact (List.map_injective_iff.2 fun _ _ => BitVec.eq_of_toNat_eq) hdigits

theorem packBin_lt (b : List Byte) : ∀ x ∈ Codec.packBin b, x.toNat < 2 ^ 7 := packFrom_lt 0 0 b

theorem unpackBin_packBin (b : List Byte) : Codec.unpackBin (Codec.packBin b) = b := by
  have hlen : (Codec.unpackBin (Codec.packBin b)).length = b.length := by
    rw [unpackBin_length, packBin_length]; omega
  have hpad : 7 * (Codec.packBin b).length - 8 * (7 * (Codec.packBin b).length / 8) =
      7 * ((8 * b.length + 6) / 7) - 8 * b.length := by
    rw [packBin_length]; omega
  have hval : bigNat 8 (Codec.unpackBin (Codec.packBin b)) = bigNat 8 b := by
    rw [unpackBin_value (packBin_lt b), hpad, packBin_value, Nat.mul_div_cancel _ (by positivity)]
  exact eq_of_bigNat_eq (fun x _ => x.isLt) (fun x _ => x.isLt) hlen hval

/-- Settles O51: the payload has the length and the number of the padded body without its padding. -/
theorem binaryRoundTrip : Obligations.BinaryRoundTrip := unpackBin_packBin

theorem mask7_mask7 (b : Byte) : mask7 (mask7 b) = mask7 b := by
  apply BitVec.eq_of_toNat_eq
  rw [mask7_toNat, mask7_toNat, Nat.mod_mod]

theorem mask7_eq_self_iff (b : Byte) : mask7 b = b ↔ b.toNat ≤ 0x7F := by
  rw [← BitVec.toNat_inj, mask7_toNat]; omega

theorem unpackAsc_packAsc (b : List Byte) : Codec.unpackAsc (Codec.packAsc b) = b.map mask7 := by
  rw [Codec.unpackAsc, Codec.packAsc, List.map_map]
  exact List.map_congr_left fun x _ => mask7_mask7 x

/-- Settles O53: both directions mask, so the round trip masks each byte once. -/
theorem asciiRoundTripClearsBitSeven : Obligations.AsciiRoundTripClearsBitSeven := by
  intro b
  rw [unpackAsc_packAsc]
  refine ⟨?_, ?_⟩
  · rw [List.map_map]
    exact List.map_congr_left fun x _ => mask7_toNat x
  · calc b.map mask7 = b
      _ ↔ b.map mask7 = b.map id := by rw [List.map_id]
      _ ↔ ∀ x ∈ b, mask7 x = x := List.map_inj_left
      _ ↔ ∀ x ∈ b, x.toNat ≤ 0x7F := forall₂_congr fun x _ => mask7_eq_self_iff x

theorem map_mask7_le (b : List Byte) : ∀ x ∈ b.map mask7, x.toNat ≤ 0x7F := by
  refine List.forall_mem_map.2 fun x _ => ?_
  rw [mask7_toNat]; omega

/-- Settles O54: a byte value is unpacked from its own packed body. -/
theorem bodyBytesAreSevenBit : Obligations.BodyBytesAreSevenBit := by
  refine ⟨fun b x hx => Nat.le_of_lt_succ (packBin_lt b x hx), map_mask7_le, map_mask7_le, fun x => ?_⟩
  exact ⟨Codec.packBin [x], by rw [unpackBin_packBin]; exact List.mem_singleton_self x⟩

/-! ### Bit 7 of a Binary body byte (`40_bitpack.md` R84) -/

/-- What bit 7 of the next body byte adds to the `c` pending bits: it lands on the lowest of them, and is lost where
nothing is pending. -/
def strayBit (c : Nat) : List Byte → Nat
  | [] => 0
  | g :: _ => if c = 0 then 0 else g.toNat / 128

theorem strayBit_zero (g : List Byte) : strayBit 0 g = 0 := by
  cases g <;> rfl

theorem strayBit_cons {c : Nat} (hc : 0 < c) (g : Byte) (gs : List Byte) : strayBit c (g :: gs) = g.toNat / 128 :=
  if_neg hc.ne'

theorem strayBit_lt_two (c : Nat) (g : List Byte) : strayBit c g < 2 := by
  cases g with
  | nil => exact Nat.zero_lt_two
  | cons x xs => have := x.isLt; rw [strayBit]; split <;> omega

/-- The added bit is one of the pending bits. -/
theorem strayBit_lt (c : Nat) (g : List Byte) : strayBit c g < 2 ^ c := by
  obtain rfl | hc := Nat.eq_zero_or_pos c
  · rw [strayBit_zero]; decide
  · exact (strayBit_lt_two c g).trans_le (Nat.le_self_pow hc.ne' 2)

theorem toNat_div_128 (g : Byte) : g.toNat / 128 = if g.getLsbD 7 then 1 else 0 := by
  obtain h | h : g.toNat / 128 = 0 ∨ g.toNat / 128 = 1 := by omega
  · simp [BitVec.getLsbD, Nat.testBit_eq_decide_div_mod_eq, h]
  · simp [BitVec.getLsbD, Nat.testBit_eq_decide_div_mod_eq, h]

/-- A settled group is masked and has the next group's stray bit in bit 0. -/
theorem straySettled_cons (j : Nat) (g : Byte) (gs : List Byte) :
    Codec.straySettled j (g :: gs) =
      (mask7 g ||| BitVec.ofNat 8 (strayBit (7 * (j + 1) % 8) gs)) :: Codec.straySettled (j + 1) gs := by
  cases gs with
  | nil => simp [Codec.straySettled, strayBit]
  | cons h gs =>
    have hidx : (j + 1) % 8 = 0 ↔ 7 * (j + 1) % 8 = 0 := by omega
    simp only [Codec.straySettled, strayBit, toNat_div_128, ne_eq, hidx]
    by_cases hc : 7 * (j + 1) % 8 = 0
    · simp [hc]
    · cases h.getLsbD 7 <;> simp [hc]

/-- A body byte shifted in is its low seven bits shifted in, with its bit 7 ORed onto the lowest pending bit. -/
theorem shiftIn_settled (r : Nat) (g : Byte) (s : Nat) (hs : s < 2) :
    (r ||| g.toNat / 128) <<< 7 ||| (mask7 g ||| BitVec.ofNat 8 s).toNat = (r <<< 7 ||| g.toNat) ||| s := by
  have hlow : (g.toNat / 128) <<< 7 ||| g.toNat % 128 = g.toNat := by
    rw [shiftLeft_or_eq (x := g.toNat % 128) (Nat.mod_lt _ (by decide))]; exact Nat.div_add_mod' _ _
  have hs8 : (BitVec.ofNat 8 s).toNat = s := Nat.mod_eq_of_lt (by omega)
  calc (r ||| g.toNat / 128) <<< 7 ||| (mask7 g ||| BitVec.ofNat 8 s).toNat
    _ = (r <<< 7 ||| (g.toNat / 128) <<< 7) ||| (g.toNat % 128 ||| s) := by
      rw [Nat.shiftLeft_or_distrib, BitVec.toNat_or, mask7_toNat, hs8]
    _ = (r <<< 7 ||| ((g.toNat / 128) <<< 7 ||| g.toNat % 128)) ||| s := by simp only [Nat.or_assoc]
    _ = (r <<< 7 ||| g.toNat) ||| s := by rw [hlow]

/-- With nothing pending the first group is kept (`40_bitpack.md` R74). -/
theorem unpackFrom_cons_empty (r : Nat) (g : Byte) (gs : List Byte) :
    Codec.unpackFrom r 0 (g :: gs) = Codec.unpackFrom ((r <<< 7 ||| g.toNat) % 2 ^ 7) 7 gs := by
  rw [Codec.unpackFrom, unpackDrain_stop _ _ _ (by decide)]; rfl

/-- With bits pending a group completes one byte (`40_bitpack.md` R74). -/
theorem unpackFrom_cons_pending (r : Nat) {k : Nat} (hk : k < 7) (g : Byte) (gs : List Byte) :
    Codec.unpackFrom r (k + 1) (g :: gs) =
      BitVec.ofNat 8 ((r <<< 7 ||| g.toNat) >>> k &&& 0xFF) :: Codec.unpackFrom ((r <<< 7 ||| g.toNat) % 2 ^ k) k gs := by
  have hleft : k + 1 + 7 - 8 = k := Nat.add_sub_cancel k 8
  rw [Codec.unpackFrom, unpackDrain_once _ _ _ (by omega) (by omega), hleft]; rfl

theorem or_mod_of_lt {s k : Nat} (hs : s < 2 ^ k) (r : Nat) : (r ||| s) % 2 ^ k = r % 2 ^ k ||| s := by
  rw [Nat.or_mod_two_pow, Nat.mod_eq_of_lt hs]

theorem or_shiftRight_of_lt {s k : Nat} (hs : s < 2 ^ k) (r : Nat) : (r ||| s) >>> k = r >>> k := by
  rw [Nat.shiftRight_or_distrib, Nat.shiftRight_eq_div_pow s, Nat.div_eq_of_lt hs, Nat.or_zero]

/-- `unpack_bin` from `c` pending bits on: settling the body adds what its first bit 7 does to them. -/
theorem unpackFrom_straySettled (g : List Byte) {r c j : Nat} (hc : c = 7 * j % 8) :
    Codec.unpackFrom r c g = Codec.unpackFrom (r ||| strayBit c g) c (Codec.straySettled j g) := by
  induction g generalizing r c j with
  | nil => rfl
  | cons x xs ih =>
    rw [straySettled_cons]
    cases c with
    | zero =>
      have hnext : 7 = 7 * (j + 1) % 8 := by omega
      have hlost : (r <<< 7 ||| (mask7 x ||| BitVec.ofNat 8 (strayBit 7 xs)).toNat) % 2 ^ 7 =
          ((r ||| x.toNat / 128) <<< 7 ||| (mask7 x ||| BitVec.ofNat 8 (strayBit 7 xs)).toNat) % 2 ^ 7 :=
        shiftIn_modEq (c := 0) Nat.modEq_one 7 _
      rw [← hnext, strayBit_zero, Nat.or_zero, unpackFrom_cons_empty, unpackFrom_cons_empty, hlost,
        shiftIn_settled _ _ _ (strayBit_lt_two 7 xs), or_mod_of_lt (strayBit_lt 7 xs), ih hnext]
    | succ k =>
      have hnext : k = 7 * (j + 1) % 8 := by omega
      rw [← hnext, strayBit_cons k.succ_pos, unpackFrom_cons_pending _ (by omega), unpackFrom_cons_pending _ (by omega),
        shiftIn_settled _ _ _ (strayBit_lt_two k xs), or_shiftRight_of_lt (strayBit_lt k xs),
        or_mod_of_lt (strayBit_lt k xs), ih hnext]

/-- Settles O55: at the start of a body nothing is pending. -/
theorem strayBitSevenMovesToTheGroupBefore : Obligations.StrayBitSevenMovesToTheGroupBefore := by
  intro g
  rw [Codec.unpackBin, Codec.unpackBin, unpackFrom_straySettled g (j := 0) rfl, strayBit_zero, Nat.or_zero]

end Sys2Proof.Machine

/-! SUPPORT. The first token and the end token of a frame, the numbers of tokens, and whole frames, through the encode
half and back through the decode half: the proofs of the statements of `41_frame_encode.md`. -/

namespace Sys2Proof.Machine

/-! ### The fields of a configuration word, by its number (`30_encoding.md` R57) -/

theorem cfgMode_of_le {w : Byte} (h : 128 ≤ w.toNat) : cfgMode w = .ascii := by
  have hbit : w.getLsbD 7 = true := by
    rw [BitVec.getLsbD, Nat.testBit_eq_decide_div_mod_eq, decide_eq_true_eq]; omega
  rw [cfgMode, hbit]; rfl

theorem vidByte_eq_ofNat (v : Vid) : vidByte v = BitVec.ofNat 8 v.toNat := by
  apply BitVec.eq_of_toNat_eq
  rw [vidByte_toNat, BitVec.toNat_ofNat]; omega

theorem vidByte_cfgVid_of_lt {w : Byte} (h : w.toNat < 128) : vidByte (cfgVid w) = w := by
  apply BitVec.eq_of_toNat_eq
  rw [vidByte_toNat, cfgVid_toNat, Nat.mod_eq_of_lt h]

theorem vidByte_cfgVid_of_le {w : Byte} (h : 128 ≤ w.toNat) :
    vidByte (cfgVid w) = BitVec.ofNat 8 (w.toNat - 128) := by
  rw [vidByte_eq_ofNat, cfgVid_toNat, show w.toNat % 128 = w.toNat - 128 by omega]

theorem EncEff.eq_mk {x : EncEff} {regs : EncRegs} {out : List Token} (hregs : x.regs = regs) (hout : x.out = out) :
    x = ⟨regs, out⟩ :=
  congrArg₂ EncEff.mk hregs hout

/-! ### The first token of a frame (`41_frame_encode.md` R91, R92) -/

theorem encByte_idle (d : Byte) {e : EncRegs} (h : e.st = .idle) :
    encByte d e = ⟨(encAbsorb d e.inFrame).regs,
      [Token.byte Config.sox, Token.byte (vidByte (cfgVid e.cfg))] ++ (encAbsorb d e.inFrame).out⟩ := by
  refine EncEff.eq_mk (encByte_regs d e) ?_
  rw [encByte_out, EncRegs.header_idle h]; rfl

/-- PACK.B8 with nothing pending: the high seven bits of the byte leave, its lowest bit stays (`40_bitpack.md` R71). -/
theorem packB8_empty (b : Byte) {e : EncRegs} (hr : e.r = 0) (hc : e.c = 0) :
    packB8 b e = ⟨{ e with r := BitVec.ofNat 14 (b.toNat % 2), c := 1 },
      [Token.byte (BitVec.ofNat 8 (b.toNat / 2))]⟩ := by
  rw [packB8_one b e (by simp [hc]) (by simp [hr, hc]), hr, hc]
  simp

/-- Settles O11: the header, then the first byte absorbed in the mode just latched, with nothing pending. -/
theorem firstPayloadByteStartsTheFrame : Obligations.FirstPayloadByteStartsTheFrame := by
  intro d s hinv hst
  obtain ⟨hr, hc⟩ := hinv.idle hst
  have hin := EncRegs.inFrame_idle hst
  rw [exec_eByte, State.applyEnc, encByte_idle d hst]
  refine ⟨fun hcfg => ?_, fun hcfg => ?_⟩
  · have hm : s.enc.inFrame.lmode = .binary := by rw [hin]; exact cfgMode_of_lt hcfg
    rw [encAbsorb_binary d hm, packB8_empty d (by simp [hr]) (by simp [hc]), hin, EncRegs.latchMode,
      cfgMode_of_lt hcfg, vidByte_cfgVid_of_lt hcfg]
    rfl
  · have hm : s.enc.inFrame.lmode = .ascii := by rw [hin]; exact cfgMode_of_le hcfg
    rw [encAbsorb_ascii d hm, packA, hin, EncRegs.latchMode, cfgMode_of_le hcfg, vidByte_cfgVid_of_le hcfg,
      mask7_eq_ofNat]
    rfl

/-! ### The end of the payload (`41_frame_encode.md` R93, R94) -/

theorem encFinish_out_empty {e : EncRegs} (hc : e.c = 0) : (encFinish e).out = [] := by
  cases hm : e.lmode with
  | binary => simp only [encFinish, hm, packFl_empty e hc]
  | ascii => simp only [encFinish, hm]

/-- In Ascii mode nothing is ever pending (`10_state.md` R23). -/
theorem EncRegs.Inv.lmode_of_pending {e : EncRegs} (h : e.Inv) (h0 : 0 < e.c.toNat) : e.lmode = .binary := by
  obtain ⟨-, -, hascii⟩ := h
  cases hm : e.lmode with
  | binary => rfl
  | ascii =>
    obtain ⟨-, hc⟩ := hascii hm
    simp [hc] at h0

theorem encFinish_out_pending {e : EncRegs} (h : e.Inv) (h0 : 0 < e.c.toNat) :
    (encFinish e).out = [Token.byte (BitVec.ofNat 8 (e.r.toNat * 2 ^ (7 - e.c.toNat)))] := by
  obtain ⟨hc, hr⟩ := h.pending
  simp only [encFinish, h.lmode_of_pending h0, packFl_pending e h0 hc hr]

theorem encEop_idle {e : EncRegs} (h : e.Inv) (hst : e.st = .idle) :
    encEop e = ⟨e.latchMode, [Token.byte Config.sox, Token.byte (vidByte (cfgVid e.cfg)), Token.fLast]⟩ := by
  obtain ⟨hr, hc⟩ := h.idle hst
  refine EncEff.eq_mk ?_ ?_
  · rw [encEop_regs, EncRegs.inFrame_idle hst]
    ext <;> simp [hst, hr, hc]
  · rw [encEop_out, EncRegs.header_idle hst, encFinish_out_empty (by simp [hc])]; rfl

theorem encEop_body {e : EncRegs} (hst : e.st = .body) :
    encEop e = ⟨{ e with st := .idle, r := 0, c := 0 }, (encFinish e).out ++ [Token.fLast]⟩ := by
  refine EncEff.eq_mk ?_ ?_
  · rw [encEop_regs, EncRegs.inFrame_body hst]
  · rw [encEop_out, EncRegs.header_body hst, EncRegs.inFrame_body hst]; rfl

/-- Settles O14: the position, the configured mode and the pending bits select the case. -/
theorem endOfPayloadClosesTheFrame : Obligations.EndOfPayloadClosesTheFrame := by
  intro x s hinv
  rw [exec_eEop, State.applyEnc]
  refine ⟨decodeEnc_end x, fun hst hcfg => ?_, fun hst hcfg => ?_, fun hst h0 => ?_, fun hst h0 => ?_⟩
  · rw [encEop_idle hinv hst, vidByte_cfgVid_of_lt hcfg, EncRegs.latchMode, cfgMode_of_lt hcfg]; rfl
  · rw [encEop_idle hinv hst, vidByte_cfgVid_of_le hcfg, EncRegs.latchMode, cfgMode_of_le hcfg]; rfl
  · rw [encEop_body hst, encFinish_out_empty (BitVec.eq_of_toNat_eq h0)]; rfl
  · rw [encEop_body hst, encFinish_out_pending hinv h0]; rfl

/-! ### The number of tokens of a step (`41_frame_encode.md` R98) -/

theorem encAbsorb_out_length (b : Byte) {e : EncRegs} (h : e.Inv) :
    (encAbsorb b e).out.length = if e.lmode = .binary ∧ e.c.toNat = 6 then 2 else 1 := by
  obtain ⟨hc, hr⟩ := h.pending
  cases hm : e.lmode with
  | binary =>
    rw [encAbsorb_binary b hm]
    obtain h6 | h6 := Nat.lt_or_eq_of_le hc
    · rw [packB8_one b e h6 hr]; simp [h6.ne]
    · rw [packB8_two b e h6 hr]; simp [h6]
  | ascii => rw [encAbsorb_ascii b hm]; simp [packA]

theorem encFinish_out_length {e : EncRegs} (h : e.Inv) :
    (encFinish e).out.length = if e.lmode = .binary ∧ 0 < e.c.toNat then 1 else 0 := by
  obtain h0 | h0 := Nat.eq_zero_or_pos e.c.toNat
  · rw [encFinish_out_empty (BitVec.eq_of_toNat_eq h0)]; simp [h0]
  · rw [encFinish_out_pending h h0]; simp [h0, h.lmode_of_pending h0]

/-- Settles O15: in IDLE two header tokens and one more; in BODY what the byte or the pending bits give. -/
theorem encoderTokensPerStep : Obligations.EncoderTokensPerStep := by
  intro d s hinv
  refine ⟨_, _, _, _, exec_eByte d s, rfl, exec_eEop s, rfl, ?_⟩
  cases hst : s.enc.st with
  | idle =>
    obtain ⟨-, hc⟩ := hinv.idle hst
    rw [encByte_idle d hst, encEop_idle hinv hst]
    refine ⟨?_, rfl⟩
    rw [List.length_append, encAbsorb_out_length d hinv.inFrame]; simp [hc]
  | body =>
    rw [encByte_body d hst, encEop_body hst, encAbsorb_out_length d hinv, List.length_append,
      encFinish_out_length hinv]
    refine ⟨rfl, ?_⟩
    split <;> rfl

/-! ### A whole frame (`41_frame_encode.md` R90, R96, R97) -/

theorem frameTokens_data (v : Vid) (m : Mode) (b : List Byte) :
    (Codec.frameTokens v m b).map Token.data = Codec.encode v m b := by
  have hbyte : Token.data ∘ Token.byte = id := rfl
  rw [Codec.frameTokens, List.map_append, List.map_map, hbyte, List.map_id]; rfl

theorem frameTokens_flag (v : Vid) (m : Mode) (b : List Byte) :
    (Codec.frameTokens v m b).map Token.flag =
      List.replicate ((Codec.frameTokens v m b).length - 1) false ++ [true] := by
  have hbyte : Token.flag ∘ Token.byte = fun _ => false := rfl
  have hlen : (Codec.frameTokens v m b).length - 1 = ([Config.sox, vidByte v] ++ Codec.pack m b).length := by
    simp [Codec.frameTokens]
  rw [hlen, Codec.frameTokens, List.map_append, List.map_map, hbyte, List.map_const']
  rfl

/-- Settles O17: from rest the tokens of the payload are the frame's. -/
theorem encodedTokensAreTheFrame : Obligations.EncodedTokensAreTheFrame := by
  intro m v b s hst hr hc hcfg
  refine ⟨Codec.frameTokens v m b, ?_, frameTokens_data v m b, frameTokens_flag v m b⟩
  rw [runScript_encode, State.applyEnc, encPayload_at_rest hst hr hc hcfg]

theorem pack_le (m : Mode) (b : List Byte) : ∀ x ∈ Codec.pack m b, x.toNat ≤ 0x7F := by
  cases m with
  | binary => exact fun x hx => Nat.le_of_lt_succ (packBin_lt b x hx)
  | ascii => exact map_mask7_le b

theorem encode_length (v : Vid) (m : Mode) (b : List Byte) :
    (Codec.encode v m b).length = 3 + (Codec.pack m b).length := by
  simp only [Codec.encode, List.length_append, List.length_cons, List.length_nil]; omega

/-- Settles O56: the middle is the packed body. -/
theorem frameShape : Obligations.FrameShape := by
  intro v b m
  refine ⟨?_, ?_, Codec.pack m b, by rw [← vidByte_eq_ofNat]; rfl, pack_le m b⟩
  · rw [encode_length, Codec.pack, packBin_length]
  · rw [encode_length, Codec.pack, Codec.packAsc, List.length_map]

/-! ### A frame back through the decode half (`42_frame_decode.md` R116) -/

/-- The first terminator ends the body, whatever follows it (`42_frame_decode.md` R109). -/
theorem scanBody_append_eox {x : List Byte} (h : ∀ g ∈ x, g ≠ Config.eox) (y : List Byte) :
    Codec.scanBody (x ++ Config.eox :: y) = x := by
  induction x with
  | nil => rfl
  | cons g x ih =>
    rw [List.cons_append, Codec.scanBody, if_neg (h g List.mem_cons_self),
      ih fun k hk => h k (List.mem_cons_of_mem g hk)]

/-- A frame of the configured vendor is accepted, and the bytes before its first terminator are unpacked. -/
theorem decode_frame (v : Vid) (m : Mode) {x : List Byte} (h : ∀ g ∈ x, g ≠ Config.eox) (y : List Byte) :
    Codec.decode v m ([Config.sox, vidByte v] ++ x ++ Config.eox :: y) = some (Codec.unpack m x) := by
  simp [Codec.decode, scanBody_append_eox h]

theorem decode_encode_frame (v : Vid) (m : Mode) (b : List Byte) :
    Codec.decode v m (Codec.encode v m b) = some (Codec.unpack m (Codec.pack m b)) := by
  refine decode_frame v m (fun g hg he => ?_) []
  have hle := pack_le m b g hg
  simp [he, Config.eox] at hle

theorem rejectCause_encode (v : Vid) (m : Mode) (b : List Byte) :
    Codec.rejectCause v (Codec.encode v m b) = none := by
  simp [Codec.encode, Codec.rejectCause]

/-- Settles O60: the frame's bytes are accepted, and `unpack_bin` undoes `pack_bin`. -/
theorem loopbackReturnsThePayload : Obligations.LoopbackReturnsThePayload := by
  intro v b s hinv hest hdst hecfg hdcfg
  obtain ⟨hE, hD⟩ := hinv
  obtain ⟨her, hec⟩ := hE.idle hest
  obtain ⟨hdr, hdc⟩ := hD.rest (by simp [hdst])
  have henc := encPayload_at_rest hest her hec hecfg b
  have hdec := decMessage_at_rest hdst hdr hdc hdcfg (Codec.encode v .binary b)
  rw [decode_encode_frame, rejectCause_encode, Codec.unpack, Codec.pack, unpackBin_packBin] at hdec
  refine ⟨_, Codec.frameTokens v .binary b, _, runScript_encode b s, by rw [State.applyEnc_encOut, henc],
    runScript_decode _ _, ?_, rfl, ?_⟩
  · rw [frameTokens_data, State.applyDec_decOut, State.applyEnc_dec, hdec, State.applyEnc_decOut, List.append_assoc]
    rfl
  · rw [frameTokens_data, State.applyDec_rejects, State.applyEnc_dec, hdec, State.applyEnc_rejects]
    exact List.append_nil _

end Sys2Proof.Machine

/-! SUPPORT. What each step of the decode half does to the machine, position by position, and whole messages against
`decode`: the proofs of the statements of `42_frame_decode.md`. -/

namespace Sys2Proof.Machine

/-! ### A whole message (`42_frame_decode.md` R111, R113, R116, R117) -/

/-- Settles O31: from rest the tokens and the label of a message are those of `decode` and of its first failing check. -/
theorem decodedTokensAreThePayload : Obligations.DecodedTokensAreThePayload := by
  intro m v raw s hst hr hc hcfg
  rw [runScript_decode, State.applyDec, decMessage_at_rest hst hr hc hcfg]
  rfl

theorem vidByte_injective : Function.Injective vidByte := by
  intro v w h
  apply BitVec.eq_of_toNat_eq
  rw [← vidByte_toNat v, h, vidByte_toNat]

/-- Settles O57: the byte at index 1 of the frame is the other vendor's. -/
theorem otherVendorsFrameIsRejected : Obligations.OtherVendorsFrameIsRejected := by
  intro v₁ v₂ m₁ m₂ b hv
  have hbyte : vidByte v₂ ≠ vidByte v₁ := vidByte_injective.ne hv.symm
  simp [Codec.decode, Codec.encode, hbyte]

/-- Settles O58: what is unpacked is the packed payload, which Binary mode restores and Ascii mode has masked. -/
theorem frameRoundTrip : Obligations.FrameRoundTrip := by
  intro v b
  refine ⟨?_, ?_⟩
  · rw [decode_encode_frame, Codec.unpack, Codec.pack, unpackBin_packBin]
  · rw [decode_encode_frame, Codec.unpack, Codec.pack, unpackAsc_packAsc]
    exact congrArg some (List.map_congr_left fun x _ => mask7_eq_ofNat x)

/-- Settles O59: the scan of the body stops at the first terminator. -/
theorem embeddedTerminatorEndsTheBody : Obligations.EmbeddedTerminatorEndsTheBody := by
  intro v m x y hx
  have hne : ∀ g ∈ x, g ≠ Config.eox := fun g hg he => hx g hg (by rw [he]; rfl)
  rw [← vidByte_eq_ofNat, List.append_assoc]
  exact decode_frame v m hne y

/-! ### A byte and its wire symbol (`42_frame_decode.md` R100) -/

/-- At every position D.BYTE is the wire symbol selected there. -/
theorem exec_decodeWire (g : Byte) (s : State) :
    exec (decodeWire s.dec.st (cfgVid s.dec.cfg) g) s = .next (s.applyDec (decByte g)) := by
  rw [State.applyDec]
  cases hst : s.dec.st with
  | hdr0 =>
    rw [decByte_hdr0 g hst, decodeWire]
    split <;> rfl
  | hdr1 =>
    rw [decByte_hdr1 g hst, decodeWire, ← vidByte]
    split <;> rfl
  | body =>
    rw [decByte_body g hst, decodeWire]
    split <;> rfl
  | skip => rw [decByte_skip g hst, decodeWire_skip]; rfl

theorem exec_dByte_of_decodeWire {g : Byte} {s : State} {i : Instr}
    (h : decodeWire s.dec.st (cfgVid s.dec.cfg) g = i) : exec (.dByte g) s = exec i s := by
  rw [exec_dByte, ← exec_decodeWire, h]

/-- What the selected symbol does, the byte does. -/
theorem exec_wire_and_dByte {g : Byte} {s t : State} {i : Instr}
    (h : decodeWire s.dec.st (cfgVid s.dec.cfg) g = i) (hx : exec i s = .next t) :
    exec i s = .next t ∧ exec (.dByte g) s = .next t :=
  ⟨hx, (exec_dByte_of_decodeWire h).trans hx⟩

/-- Settles O19: the token's `end` bit is 0, and D.BYTE is the selected symbol. -/
theorem byteActsAsItsWireSymbol : Obligations.ByteActsAsItsWireSymbol :=
  fun g _ => ⟨decodeDec_byte g, exec_dByte_of_decodeWire rfl⟩

/-! ### What an effect of the decode half leaves in the machine -/

theorem State.applyDec_quiet {s : State} {f : DecRegs → DecEff} {d : DecRegs} (h : f s.dec = .quiet d) :
    s.applyDec f = { s with dec := d } := by
  simp [State.applyDec, h, DecEff.quiet]

theorem State.applyDec_reject {s : State} {f : DecRegs → DecEff} {d : DecRegs} {cause : RejCause}
    (h : f s.dec = ⟨d, [], [cause]⟩) : s.applyDec f = { s with dec := d, rejects := s.rejects ++ [cause] } := by
  simp [State.applyDec, h]

theorem State.applyDec_emit {s : State} {f : DecRegs → DecEff} {d : DecRegs} {out : List Token}
    (h : f s.dec = ⟨d, out, []⟩) : s.applyDec f = { s with dec := d, decOut := s.decOut ++ out } := by
  simp [State.applyDec, h]

/-! ### The header bytes (`42_frame_decode.md` R101 to R104) -/

/-- Settles O20: the start byte selects W.SOX at index 0. -/
theorem startByteOpensTheMessage : Obligations.StartByteOpensTheMessage := by
  intro s hst
  have hg : decodeWire s.dec.st (cfgVid s.dec.cfg) 0xF0 = .wSox := by rw [hst]; exact decodeWire_sox _
  refine exec_wire_and_dByte hg ?_
  rw [exec_wSox, State.applyDec_quiet (f := decSox) rfl]

/-- Settles O21: every other byte selects W.BAD0 at index 0. -/
theorem otherFirstByteRejects : Obligations.OtherFirstByteRejects := by
  intro g s hst hne
  have hsox : g ≠ Config.sox := fun he => hne (by rw [he]; rfl)
  have hg : decodeWire s.dec.st (cfgVid s.dec.cfg) g = .wBad0 g := by rw [hst, decodeWire_bad0 _ hsox]
  refine exec_wire_and_dByte hg ?_
  rw [exec_wBad0, State.applyDec_reject (f := decBad0) rfl]

theorem cfgMode_eq_ascii_iff (w : Byte) : cfgMode w = .ascii ↔ 128 ≤ w.toNat := by
  refine ⟨fun h => ?_, cfgMode_of_le⟩
  by_contra hlt
  rw [cfgMode_of_lt (not_le.1 hlt)] at h
  cases h

/-- Settles O22: the configured vendor id selects W.VID at index 1, which latches the configured mode. -/
theorem configuredVendorAccepts : Obligations.ConfiguredVendorAccepts := by
  intro v s hst hv
  have hvid : cfgVid s.dec.cfg = v := BitVec.eq_of_toNat_eq ((cfgVid_toNat _).trans hv)
  have hg : decodeWire s.dec.st (cfgVid s.dec.cfg) (BitVec.ofNat 8 v.toNat) = .wVid v := by
    rw [hst, hvid, ← vidByte_eq_ofNat, decodeWire_vid]
  refine ⟨cfgMode s.dec.cfg, cfgMode_eq_ascii_iff _, exec_wire_and_dByte hg ?_⟩
  rw [exec_wVid, State.applyDec_quiet (f := decVid) rfl]; rfl

/-- Settles O23: every other byte selects W.BADV at index 1. -/
theorem otherVendorRejects : Obligations.OtherVendorRejects := by
  intro g s hst hne
  have hvid : g ≠ vidByte (cfgVid s.dec.cfg) := fun he => hne (by rw [he, vidByte_toNat, cfgVid_toNat])
  have hg : decodeWire s.dec.st (cfgVid s.dec.cfg) g = .wBadv g := by rw [hst, decodeWire_badv hvid]
  refine exec_wire_and_dByte hg ?_
  rw [exec_wBadv, State.applyDec_reject (f := decBadv) rfl]

/-! ### The end of the payload and of the message (`42_frame_decode.md` R105, R107, R108) -/

/-- Settles O24: the terminator selects W.EOX in the body, and UNPK.DR drops what is pending. -/
theorem terminatorEndsThePayload : Obligations.TerminatorEndsThePayload := by
  intro s hst
  have hg : decodeWire s.dec.st (cfgVid s.dec.cfg) 0xF7 = .wEox := by rw [hst]; exact decodeWire_eox _
  refine exec_wire_and_dByte hg ?_
  rw [exec_wEox, State.applyDec_emit (f := decEox) rfl]; rfl

/-- Settles O27: every byte selects W.SKIP in a rejected or terminated message. -/
theorem skippedByteChangesNothing : Obligations.SkippedByteChangesNothing := by
  intro g s hst
  have hg : decodeWire s.dec.st (cfgVid s.dec.cfg) g = .wSkip := by rw [hst, decodeWire_skip]
  refine exec_wire_and_dByte hg ?_
  rw [exec_wSkip, State.applyDec_quiet (f := decSkip) rfl]

theorem decEom_header {d : DecRegs} (hst : d.st = .hdr0 ∨ d.st = .hdr1) : decEom d = ⟨d.toHdr0, [], [.short]⟩ := by
  obtain h | h := hst <;> simp only [decEom, h] <;> rfl

theorem decEom_body {d : DecRegs} (hst : d.st = .body) : decEom d = ⟨d.toHdr0, [Token.pEnd], []⟩ := by
  simp only [decEom, hst]; rfl

theorem decEom_skip {d : DecRegs} (hst : d.st = .skip) : decEom d = .quiet d.toHdr0 := by
  simp only [decEom, hst]

/-- Settles O28: a short message is rejected, a body is closed, and the end of a skipped message is silent. -/
theorem endOfMessageReturnsToStart : Obligations.EndOfMessageReturnsToStart := by
  intro s
  rw [exec_dEom]
  refine ⟨fun hst => ?_, fun hst => ?_, fun hst => ?_⟩
  · rw [State.applyDec_reject (decEom_header hst)]; rfl
  · rw [State.applyDec_emit (decEom_body hst)]; rfl
  · rw [State.applyDec_quiet (decEom_skip hst)]; rfl

/-! ### The number of tokens of a step (`42_frame_decode.md` R106, R118) -/

theorem decAbsorb_out_length (g : Byte) {d : DecRegs} (h : d.Inv) :
    (decAbsorb g d).out.length = if d.lmode = .binary ∧ d.c.toNat = 0 then 0 else 1 := by
  obtain ⟨hc, hr⟩ := h.pending
  cases hm : d.lmode with
  | binary =>
    rw [decAbsorb_binary g hm]
    obtain h0 | h0 := Nat.eq_zero_or_pos d.c.toNat
    · obtain ⟨hr0, hc0⟩ := pending_eq_zero hr h0
      rw [unpkG7_none g d hc0 hr0]; simp [h0, DecEff.quiet]
    · rw [unpkG7_some g d h0 hc hr]; simp [h0.ne']
  | ascii => rw [decAbsorb_ascii g hm]; simp [unpkA]

theorem decByte_body_out_length (g : Byte) {d : DecRegs} (h : d.Inv) (hst : d.st = .body) :
    (decByte g d).out.length = if g.toNat ≠ 0xF7 ∧ d.lmode = .binary ∧ d.c.toNat = 0 then 0 else 1 := by
  have hterm : g = Config.eox ↔ g.toNat = 0xF7 := BitVec.toNat_inj.symm
  rw [decByte_body g hst]
  by_cases hg : g = Config.eox
  · rw [if_pos hg, if_neg fun hand => hand.1 (hterm.1 hg)]; rfl
  · rw [if_neg hg, decAbsorb_out_length g h]
    simp [mt hterm.2 hg]

/-- Outside the body no byte emits anything. -/
theorem decByte_out_of_ne_body (g : Byte) {d : DecRegs} (hst : d.st ≠ .body) : (decByte g d).out = [] := by
  cases h : d.st with
  | hdr0 => rw [decByte_hdr0 g h]; split <;> rfl
  | hdr1 => rw [decByte_hdr1 g h]; split <;> rfl
  | body => exact absurd h hst
  | skip => rw [decByte_skip g h]; rfl

/-- Settles O29: only the body emits. -/
theorem decoderTokensPerStep : Obligations.DecoderTokensPerStep := by
  intro g s hinv
  refine ⟨_, _, _, _, exec_dByte g s, rfl, exec_dEom s, rfl, ?_⟩
  cases hst : s.dec.st with
  | hdr0 => rw [decByte_out_of_ne_body g (by simp [hst]), decEom_header (.inl hst)]; exact ⟨rfl, rfl⟩
  | hdr1 => rw [decByte_out_of_ne_body g (by simp [hst]), decEom_header (.inr hst)]; exact ⟨rfl, rfl⟩
  | body => rw [decByte_body_out_length g hinv hst, decEom_body hst]; exact ⟨rfl, rfl⟩
  | skip => rw [decByte_out_of_ne_body g (by simp [hst]), decEom_skip hst]; exact ⟨rfl, rfl⟩

end Sys2Proof.Machine

/-! SUPPORT. What a configuration register holds along a script, and reset: the proofs of the statements of
`43_config_ops.md`. -/

namespace Sys2Proof.Machine

/-! ### The configuration registers along a script (`43_config_ops.md` R120, R121) -/

theorem State.readCfg_applyEnc {s : State} {f : EncRegs → EncEff} (h : (f s.enc).regs.cfg = s.enc.cfg) (a : CfgAddr) :
    (s.applyEnc f).readCfg a = s.readCfg a := by
  cases a with
  | enc => exact h
  | dec => rfl

theorem State.readCfg_applyDec {s : State} {f : DecRegs → DecEff} (h : (f s.dec).regs.cfg = s.dec.cfg) (a : CfgAddr) :
    (s.applyDec f).readCfg a = s.readCfg a := by
  cases a with
  | enc => rfl
  | dec => exact h

/-- A write leaves the register at the other address. -/
theorem State.readCfg_writeCfg_of_ne (s : State) (d : Byte) :
    ∀ {a b : CfgAddr}, b ≠ a → (s.writeCfg d b).readCfg a = s.readCfg a
  | .enc, .dec, _ => rfl
  | .dec, .enc, _ => rfl
  | .enc, .enc, h => absurd rfl h
  | .dec, .dec, h => absurd rfl h

/-- Only RESET and a write to its address change a configuration register. -/
theorem exec_readCfg {i : Instr} {a : CfgAddr} (h : i ≠ .reset ∧ ∀ d, i ≠ .cfgWr a d) {s t : State}
    (hx : exec i s = .next t) : t.readCfg a = s.readCfg a := by
  obtain ⟨hreset, hwrite⟩ := h
  cases hf : decEffect i with
  | some f =>
    rw [exec_of_decEffect hf] at hx
    cases hx
    exact State.readCfg_applyDec (decEffect_cfg hf s.dec) a
  | none =>
    cases i with
    | eByte b => cases hx; exact State.readCfg_applyEnc (by simp) a
    | eEop => cases hx; exact State.readCfg_applyEnc (by simp) a
    | cfgWr b d =>
      have hba : b ≠ a := fun hb => hwrite d (by rw [hb])
      cases hx
      exact s.readCfg_writeCfg_of_ne d hba
    | cfgRd b => cases hx; rfl
    | reset => exact absurd rfl hreset
    | _ => cases hf

theorem runScript_readCfg {a : CfgAddr} {is : List Instr} (h : ∀ i ∈ is, i ≠ .reset ∧ ∀ d, i ≠ .cfgWr a d)
    {s t : State} (hx : runScript is s = .next t) : t.readCfg a = s.readCfg a := by
  induction is generalizing s with
  | nil => cases hx; rfl
  | cons i is ih =>
    obtain ⟨hi, his⟩ := List.forall_mem_cons.1 h
    obtain ⟨u, hu⟩ := exec_total i s
    rw [runScript_cons_next hu] at hx
    rw [ih his hx, exec_readCfg hi hu]

/-- What an operation leaves in a configuration register is what a later read returns, until the next write or reset. -/
theorem runScript_read_after {i : Instr} {a : CfgAddr} {d : Byte} {s u : State} (hu : exec i s = .next u)
    (hd : u.readCfg a = d) {is : List Instr} (h : ∀ j ∈ is, j ≠ .reset ∧ ∀ d', j ≠ .cfgWr a d') :
    ∃ t, runScript ([i] ++ is ++ [.cfgRd a]) s = .next t ∧ t.rdata.getLast? = some d := by
  obtain ⟨t, ht⟩ := runScript_total is u
  have hrun : runScript ([i] ++ is) s = .next t := (runScript_cons_next hu is).trans ht
  refine ⟨_, (runScript_append_next hrun _).trans (runScript_cons_next (exec_cfgRd a t) []), ?_⟩
  rw [List.getLast?_concat, runScript_readCfg h ht, hd]

/-- Settles O34: the write and the reset set the addressed register, and nothing in between changes it. -/
theorem readReturnsTheLastWrite : Obligations.ReadReturnsTheLastWrite := by
  intro x d a is s
  have henc : decodeCfg (BitVec.ofNat 10 x.toNat) = .cfgRd .enc := by simpa [CfgAddr.bit] using decodeCfg_read .enc x
  refine ⟨henc, decodeCfg_read .dec x, exec_cfgRd .enc s, exec_cfgRd .dec s, fun h => ⟨?_, ?_⟩⟩
  · exact runScript_read_after (exec_cfgWr a d s) (s.readCfg_writeCfg d a) h
  · exact runScript_read_after (exec_reset s) (by cases a <;> rfl) h

/-- Settles O33: the write is the addressed register's update. -/
theorem configurationWrite : Obligations.ConfigurationWrite := fun d s =>
  ⟨decodeCfg_write .enc d, decodeCfg_write .dec d, exec_cfgWr .enc d s, exec_cfgWr .dec d s⟩

/-! ### Reset (`43_config_ops.md` R122) -/

/-- Settles O35: the pin selects RESET, and its effect is the two halves' reset values. -/
theorem resetClearsBothHalves : Obligations.ResetClearsBothHalves := fun s => ⟨rfl, exec_reset s⟩

/-- After reset an empty payload gets the header of vendor 0x7D and F.LAST, and the half is as reset left it. -/
theorem encEop_reset : encEop .reset = ⟨.reset, [⟨false, 0xF0⟩, ⟨false, 0x7D⟩, ⟨true, 0xF7⟩]⟩ := by
  obtain ⟨henc, -⟩ := reset_inv
  rw [show EncRegs.reset = State.reset.enc from rfl, encEop_idle henc rfl]
  rfl

/-- Settles O37: E.EOP finds the encode half in its reset state and leaves it there. -/
theorem emptyFrameAfterReset : Obligations.EmptyFrameAfterReset := by
  intro s
  refine ⟨_, (runScript_cons_next (exec_reset s) _).trans (runScript_cons_next (exec_eEop _) []), ?_, rfl, ?_, rfl⟩
  · rw [State.applyEnc_encOut, encEop_reset]
  · rw [State.applyEnc_enc, encEop_reset]; rfl

end Sys2Proof.Machine

/-! SUPPORT. What holds of every operation and of every step: it answers a next state, takes a waiting token, reads no
history of rejections, and touches one of several instances only. The proofs of the statements of `60_exceptions.md`. -/

namespace Sys2Proof.Machine

/-! ### No fault, and no token left waiting (`60_exceptions.md` R130, R138) -/

/-- Settles O9: every arm of `exec` answers a next state, and a step runs one of them or none. -/
theorem nothingEverStops : Obligations.NothingEverStops := ⟨exec_total, step_total⟩

/-- With nothing scheduled and a token waiting on either input port, a step takes exactly one. -/
theorem step_takes_one_token {n : Nat} {s : State} (ht : s.turns = []) (hn : s.encIn.length + s.decIn.length = n + 1) :
    ∃ t, step s = .next t ∧ t.turns = [] ∧ t.encIn.length + t.decIn.length = n := by
  cases he : s.encIn with
  | cons w ws =>
    obtain ⟨henc, -, -⟩ := stepWithNothingScheduled s w ws ht
    obtain ⟨t, hx⟩ := exec_total (decodeEnc w) { s with encIn := ws }
    obtain ⟨he', hd', ht'⟩ := exec_ports hx
    refine ⟨t, (henc he).trans hx, ht'.trans ht, ?_⟩
    simp only [he, List.length_cons, he', hd'] at hn ⊢
    omega
  | nil =>
    cases hd : s.decIn with
    | nil => simp [he, hd] at hn
    | cons w ws =>
      obtain ⟨-, hdec, -⟩ := stepWithNothingScheduled s w ws ht
      obtain ⟨t, hx⟩ := exec_total (decodeDec w) { s with decIn := ws }
      obtain ⟨he', hd', ht'⟩ := exec_ports hx
      refine ⟨t, (hdec he hd).trans hx, ht'.trans ht, ?_⟩
      simp only [hd, List.length_cons, he', hd'] at hn ⊢
      omega

/-- Settles O10, by induction on the number of tokens that wait on both ports together. -/
theorem waitingTokensAreTaken : Obligations.WaitingTokensAreTaken := by
  intro s ht
  induction hn : s.encIn.length + s.decIn.length generalizing s with
  | zero =>
    obtain ⟨he, hd⟩ := Nat.add_eq_zero_iff.1 hn
    exact ⟨s, rfl, List.length_eq_zero_iff.1 he, List.length_eq_zero_iff.1 hd, ht⟩
  | succ n ih =>
    obtain ⟨t, hstep, ht', hn'⟩ := step_takes_one_token ht hn
    rw [runSteps_succ_next hstep]
    exact ih t ht' hn'

/-! ### The history of rejections is not read (`60_exceptions.md` R131) -/

/-- The state with another history. -/
def State.withRejects (s : State) (h : List RejCause) : State := { s with rejects := h }

/-- `f` appends labels to the history and does the same whatever the history holds. -/
def IgnoresRejects (f : State → Host.Outcome State Fault Refusal) : Prop :=
  ∀ (s : State) (h : List RejCause), ∃ t new, f s = .next t ∧ t.rejects = s.rejects ++ new ∧
    f (s.withRejects h) = .next (t.withRejects (h ++ new))

/-- It is enough that no label is appended and that the effect carries any history along. -/
theorem ignoresRejects_of_no_label {f : State → Host.Outcome State Fault Refusal} {g : State → State}
    (hf : ∀ s, f s = .next (g s)) (hkeep : ∀ s, (g s).rejects = s.rejects)
    (hread : ∀ s h, g (s.withRejects h) = (g s).withRejects h) : IgnoresRejects f := fun s h =>
  ⟨g s, [], hf s, by rw [hkeep, List.append_nil], by rw [hf, hread, List.append_nil]⟩

/-- An operation of the decode half appends the labels its registers determine; every other operation appends none. -/
theorem exec_ignoresRejects (i : Instr) : IgnoresRejects (exec i) := by
  cases hf : decEffect i with
  | some f => exact fun s h => ⟨s.applyDec f, (f s.dec).rejects, exec_of_decEffect hf s, rfl, exec_of_decEffect hf _⟩
  | none =>
    cases i with
    | eByte d => exact ignoresRejects_of_no_label (exec_eByte d) (fun _ => rfl) (fun _ _ => rfl)
    | eEop => exact ignoresRejects_of_no_label exec_eEop (fun _ => rfl) (fun _ _ => rfl)
    | cfgWr a d =>
      refine ignoresRejects_of_no_label (exec_cfgWr a d) (fun s => ?_) (fun s h => ?_)
      · cases a <;> rfl
      · cases a <;> rfl
    | cfgRd a => exact ignoresRejects_of_no_label (exec_cfgRd a) (fun _ => rfl) (fun s h => by cases a <;> rfl)
    | reset => exact ignoresRejects_of_no_label exec_reset (fun _ => rfl) (fun _ _ => rfl)
    | _ => cases hf

/-- What `fetch` brings, with another history in its state. -/
def Fetched.withRejects (h : List RejCause) : Fetched → Fetched
  | .run i t => .run i (t.withRejects h)
  | .noOp t => .noOp (t.withRejects h)

theorem fetchEnc_withRejects (s : State) (h : List RejCause) :
    fetchEnc (s.withRejects h) = (fetchEnc s).withRejects h := by
  cases he : s.encIn with
  | nil => rw [fetchEnc_empty he]; exact fetchEnc_empty he
  | cons w ws => rw [fetchEnc_token he]; exact fetchEnc_token he

theorem fetchDec_withRejects (s : State) (h : List RejCause) :
    fetchDec (s.withRejects h) = (fetchDec s).withRejects h := by
  cases hd : s.decIn with
  | nil => rw [fetchDec_empty hd]; exact fetchDec_empty hd
  | cons w ws => rw [fetchDec_token hd]; exact fetchDec_token hd

theorem fetchTurn_withRejects (t : Turn) (s : State) (h : List RejCause) :
    fetchTurn t (s.withRejects h) = (fetchTurn t s).withRejects h := by
  cases t with
  | enc => exact fetchEnc_withRejects s h
  | dec => exact fetchDec_withRejects s h
  | _ => rfl

/-- The history has no part in what the schedule and the ports bring. -/
theorem fetch_withRejects (s : State) (h : List RejCause) :
    fetch (s.withRejects h) = (fetch s).withRejects h := by
  cases ht : s.turns with
  | cons t ts =>
    rw [fetch_turn ht, ← fetchTurn_withRejects]
    exact fetch_turn ht
  | nil =>
    cases he : s.encIn with
    | cons w ws =>
      rw [fetch_unscheduled_enc ht he, ← fetchEnc_withRejects]
      exact fetch_unscheduled_enc ht he
    | nil =>
      rw [fetch_unscheduled_dec ht he, ← fetchDec_withRejects]
      exact fetch_unscheduled_dec ht he

/-- Neither what is fetched nor what runs reads the history. -/
theorem step_ignoresRejects : IgnoresRejects step := by
  intro s h
  have hfetch' := fetch_withRejects s h
  cases hf : fetch s with
  | run i u =>
    rw [hf] at hfetch'
    obtain ⟨-, -, -, -, -, hkeep, -⟩ := fetch_run_regs hf
    obtain ⟨t, new, hx, hnew, hx'⟩ := exec_ignoresRejects i u h
    exact ⟨t, new, (step_run hf).trans hx, by rw [hnew, hkeep], (step_run hfetch').trans hx'⟩
  | noOp u =>
    rw [hf] at hfetch'
    obtain ⟨-, -, -, hkeep⟩ := fetch_noOp_regs hf
    exact ⟨u, [], step_noOp hf, by rw [hkeep, List.append_nil], by rw [List.append_nil]; exact step_noOp hfetch'⟩

/-- Settles O41: the history plays no part in the fetch or in the operation it brings. -/
theorem rejectionHistoryIsNeverRead : Obligations.RejectionHistoryIsNeverRead := step_ignoresRejects

/-! ### Several instances (`60_exceptions.md` R142) -/

theorem Instances.step_of_none {sys : Instances} {k : Nat} (hk : sys[k]? = none) : Instances.step sys k = sys := by
  simp only [Instances.step, hk]

theorem Instances.step_of_next {sys : Instances} {k : Nat} {s t : State} (hk : sys[k]? = some s)
    (hstep : Machine.step s = .next t) : Instances.step sys k = sys.set k t := by
  simp only [Instances.step, hk, hstep]

/-- Settles O46: a step replaces one entry of the list by what its own step gives. -/
theorem instancesAreIndependent : Obligations.InstancesAreIndependent := by
  intro sys k j
  cases hk : sys[k]? with
  | none =>
    rw [Instances.step_of_none hk]
    exact ⟨rfl, fun _ => rfl, fun s hs => nomatch hs⟩
  | some s =>
    obtain ⟨hlt, -⟩ := List.getElem?_eq_some_iff.1 hk
    obtain ⟨t, hstep⟩ := step_total s
    rw [Instances.step_of_next hk hstep]
    refine ⟨List.length_set, fun hne => List.getElem?_set_ne hne.symm, fun s' hs => ?_⟩
    cases hs
    exact ⟨t, hstep, List.getElem?_set_self hlt⟩

end Sys2Proof.Machine

/-! SUPPORT. A body cut short (`70_reset_and_hazards.md` R161). -/

namespace Sys2Proof.Machine

/-- The unpacker never takes back a byte it has emitted. -/
theorem unpackFrom_prefix (r c : Nat) {xs g : List Byte} (h : xs <+: g) :
    Codec.unpackFrom r c xs <+: Codec.unpackFrom r c g := by
  induction xs generalizing r c g with
  | nil => exact List.nil_prefix
  | cons x xs ih =>
    obtain ⟨g, rfl, hg⟩ := List.cons_prefix_iff.1 h
    exact (List.prefix_append_right_inj _).2 (ih _ _ hg)

theorem unpackBin_take (g : List Byte) (m : Nat) :
    Codec.unpackBin (g.take m) = (Codec.unpackBin g).take (7 * (g.take m).length / 8) := by
  have hprefix : Codec.unpackBin (g.take m) <+: Codec.unpackBin g := unpackFrom_prefix 0 0 (List.take_prefix m g)
  rw [← unpackBin_length]
  exact List.prefix_iff_eq_take.1 hprefix

/-- Settles O52: the cut body's bytes are a prefix of the whole body's, and their number is the unpacker's length law. -/
theorem truncatedBodyGivesAPrefix : Obligations.TruncatedBodyGivesAPrefix := by
  intro b m hm
  rw [unpackBin_take, unpackBin_packBin, List.length_take_of_le hm]

end Sys2Proof.Machine
